-- ==== Sys2Proof/Word.lean ====
section
/-! DEFINITION. The words of the AD56X4-FRAMER: bytes, data words, frames, device
identifiers, the command names, and the request record of the request port.
Rules R8, R26 (value domains), R62 (command names) and R70 (request record). -/

namespace Sys2Proof

/-- One byte of a frame (R42). -/
abbrev Byte := BitVec 8

/-- The 16-bit data word `f[15:0]` (R26, R65). -/
abbrev Data := BitVec 16

/-- The 24-bit frame `f[23:0]` (R26, R60). -/
abbrev Frame := BitVec 24

/-- A chip-select identifier.  Its width `CS_ID_W` is open (R7, decision D13) and the block does no
arithmetic on it (R41), so it is an abstract identifier: a natural number, which covers the
identifiers of every width.  `devFits` of `WellFormed` states the bound of one width. -/
abbrev Dev := Nat

/-- The eight frame commands by the document's names (R26 "Command", R62).  Their codes are
`Machine.Cmd.code`. -/
inductive Cmd where
  | writeInput
  | updateDac
  | writeInputUpdateAll
  | writeUpdate
  | power
  | resetCmd
  | setLdac
  | reference
  deriving DecidableEq, Repr

/-- Format `REQ` (R70): the operand fields of the request port, R29's `req_*` signals without
`req_valid`.  One-bit signals are `Bool`. -/
structure Req where
  op      : BitVec 4
  dev     : Dev
  setmode : BitVec 3
  addr    : BitVec 3
  value   : Data
  valA    : Data
  valB    : Data
  valC    : Data
  valD    : Data
  mask    : BitVec 4
  enA     : Bool
  enB     : Bool
  enC     : Bool
  enD     : Bool
  pmode   : BitVec 2
  pmA     : BitVec 2
  pmB     : BitVec 2
  pmC     : BitVec 2
  pmD     : BitVec 2
  flag    : Bool
  deriving DecidableEq, Repr, Inhabited

/-- The all-zero request record: `req_op` 0x0 names no operation (R71). -/
def Req.zero : Req :=
  { op := 0, dev := 0, setmode := 0, addr := 0, value := 0, valA := 0, valB := 0, valC := 0,
    valD := 0, mask := 0, enA := false, enB := false, enC := false, enD := false, pmode := 0,
    pmA := 0, pmB := 0, pmC := 0, pmD := 0, flag := false }

end Sys2Proof
end

