-- ==== Sys2Proof/Syntax.lean ====
section
/-! DEFINITION. The instructions: one constructor per row of `spec/opcode_table.json`.  The eight
rows of format `F24` are the frame commands, the instructions of the wire (R62, R106 to R113); the
ten rows of format `REQ` are the operations of the request port (R71, R122 to R124, R140 to R146),
each with exactly the fields R30 marks "read" and the device every operation reads. -/

namespace Sys2Proof

inductive Instr where
  /-- `WRITE_INPUT`, `00 000 aaa d…d` (R106). -/
  | writeInput (addr : BitVec 3) (data : Data)
  /-- `UPDATE_DAC`, `00 001 aaa 0…0` (R107). -/
  | updateDac (addr : BitVec 3)
  /-- `WRITE_INPUT_UPDATE_ALL`, `00 010 aaa d…d` (R108). -/
  | writeInputUpdateAll (addr : BitVec 3) (data : Data)
  /-- `WRITE_UPDATE`, `00 011 aaa d…d` (R109). -/
  | writeUpdate (addr : BitVec 3) (data : Data)
  /-- `POWER`, `00 100 000 0000000000 pp mmmm` (R110). -/
  | power (pmode : BitVec 2) (mask : BitVec 4)
  /-- `RESET_CMD`, `00 101 000 000000000000000 r` (R111). -/
  | resetCmd (full : Bool)
  /-- `SET_LDAC`, `00 110 000 000000000000 mmmm` (R112). -/
  | setLdac (mask : BitVec 4)
  /-- `REFERENCE`, `00 111 000 000000000000000 y` (R113). -/
  | reference (yes : Bool)
  /-- `SETCH`, `setChannel(dev, mode, addr, value)` (R122). -/
  | setch (dev : Dev) (setmode : BitVec 3) (addr : BitVec 3) (value : Data)
  /-- `SETCH4`, four values, the lanes named by channel (R123, R70). -/
  | setch4 (dev : Dev) (setmode : BitVec 3) (valA valB valC valD : Data)
  /-- `UPDATE`, `updateChannel(dev, addr)` (R124). -/
  | update (dev : Dev) (addr : BitVec 3)
  /-- `PWR`, mask form (R140). -/
  | pwr (dev : Dev) (pmode : BitVec 2) (mask : BitVec 4)
  /-- `PWRB`, boolean form (R141). -/
  | pwrb (dev : Dev) (pmode : BitVec 2) (enA enB enC enD : Bool)
  /-- `PWR4`, one power mode per channel (R142). -/
  | pwr4 (dev : Dev) (pmA pmB pmC pmD : BitVec 2)
  /-- `RESET`, `reset(dev, full)` (R143). -/
  | reset (dev : Dev) (full : Bool)
  /-- `LDAC`, mask form (R144). -/
  | ldac (dev : Dev) (mask : BitVec 4)
  /-- `LDACB`, boolean form (R145). -/
  | ldacb (dev : Dev) (enA enB enC enD : Bool)
  /-- `REF`, `useInternalReference(dev, yes)` (R146). -/
  | ref (dev : Dev) (yes : Bool)
  deriving DecidableEq, Repr

end Sys2Proof
end

