-- ==== Sys2Proof/Decode.lean ====
section
/-! DEFINITION. Decoding, total on every frame, every byte sequence and every request record, with
each rejection named; after it the encoder, written from the same tables of
`spec/30_encoding.md` (R60, R62, R65, R70, R71).  A frame is numbered as the spec numbers it,
`f[23:0]`, byte0 = `f[23:16]` first (R42). -/

namespace Sys2Proof

/-- Why something is no instruction. -/
inductive DecodeError where
  /-- `req_op` 0x0 or 0xB to 0xF: names no operation (R72). -/
  | reservedSelector (op : BitVec 4)
  /-- `f[23:22]` is not 00: not a frame the block emits (R61). -/
  | reservedTopBits (bits : BitVec 2)
  /-- A bit that the block always emits as zero for this command is 1 (R65, R78, R110 to R113). -/
  | strayBits (cmd : BitVec 3)
  /-- Fewer than the three bytes of a frame (R74). -/
  | truncated
  deriving DecidableEq, Repr

/-! ### Frames -/

/-- `f[23:22]` (R60, R61). -/
def frameZero (f : Frame) : BitVec 2 := f.extractLsb' 22 2

/-- `f[21:19]` (R60, R62). -/
def frameCmd (f : Frame) : BitVec 3 := f.extractLsb' 19 3

/-- `f[18:16]` (R60, R63). -/
def frameAddr (f : Frame) : BitVec 3 := f.extractLsb' 16 3

/-- `f[15:0]` (R60, R65). -/
def frameData (f : Frame) : Data := f.extractLsb' 0 16

/-- Reading a frame back into its fields as the chip's side does (R79): total, `f[23:22]` ignored. -/
def readFrame (f : Frame) : BitVec 3 × BitVec 3 × Data := (frameCmd f, frameAddr f, frameData f)

/-- The frame command a frame of the block is, by the rows of format `F24`: the bits a row fixes
must be as the block emits them (R65, R79). -/
def decodeFrame (f : Frame) : Except DecodeError Instr :=
  if frameZero f ≠ 0b00#2 then .error (.reservedTopBits (frameZero f))
  else
    match frameCmd f with
    | 0b000#3 => .ok (.writeInput (frameAddr f) (frameData f))
    | 0b001#3 =>
      if f.extractLsb' 0 16 = 0#16 then .ok (.updateDac (frameAddr f))
      else .error (.strayBits 0b001#3)
    | 0b010#3 => .ok (.writeInputUpdateAll (frameAddr f) (frameData f))
    | 0b011#3 => .ok (.writeUpdate (frameAddr f) (frameData f))
    | 0b100#3 =>
      if f.extractLsb' 6 13 = 0#13 then .ok (.power (f.extractLsb' 4 2) (f.extractLsb' 0 4))
      else .error (.strayBits 0b100#3)
    | 0b101#3 =>
      if f.extractLsb' 1 18 = 0#18 then .ok (.resetCmd (f.getLsbD 0))
      else .error (.strayBits 0b101#3)
    | 0b110#3 =>
      if f.extractLsb' 4 15 = 0#15 then .ok (.setLdac (f.extractLsb' 0 4))
      else .error (.strayBits 0b110#3)
    | _ =>
      if f.extractLsb' 1 18 = 0#18 then .ok (.reference (f.getLsbD 0))
      else .error (.strayBits 0b111#3)

/-- A frame from its three bytes in the order sent (R42). -/
def frameOfBytes (b0 b1 b2 : Byte) : Frame := b0 ++ b1 ++ b2

/-- The frame command at the head of a byte sequence, and the bytes after it.  Every frame has three
bytes (R74). -/
def decodeBytes : List Byte → Except DecodeError (Instr × List Byte)
  | b0 :: b1 :: b2 :: rest =>
    match decodeFrame (frameOfBytes b0 b1 b2) with
    | .ok i => .ok (i, rest)
    | .error e => .error e
  | _ => .error .truncated

/-! ### Requests -/

/-- The operation a request names, with exactly the fields it reads (R30, R71, R72). -/
def decodeReq (r : Req) : Except DecodeError Instr :=
  match r.op with
  | 0x1#4 => .ok (.setch r.dev r.setmode r.addr r.value)
  | 0x2#4 => .ok (.setch4 r.dev r.setmode r.valA r.valB r.valC r.valD)
  | 0x3#4 => .ok (.update r.dev r.addr)
  | 0x4#4 => .ok (.pwr r.dev r.pmode r.mask)
  | 0x5#4 => .ok (.pwrb r.dev r.pmode r.enA r.enB r.enC r.enD)
  | 0x6#4 => .ok (.pwr4 r.dev r.pmA r.pmB r.pmC r.pmD)
  | 0x7#4 => .ok (.reset r.dev r.flag)
  | 0x8#4 => .ok (.ldac r.dev r.mask)
  | 0x9#4 => .ok (.ldacb r.dev r.enA r.enB r.enC r.enD)
  | 0xA#4 => .ok (.ref r.dev r.flag)
  | op => .error (.reservedSelector op)

/-- What carries an instruction: a frame on the wire or a record on the request port. -/
inductive Encoded where
  | frame (f : Frame)
  | request (r : Req)
  deriving DecidableEq, Repr

/-- Decoding of both formats. -/
def decode : Encoded → Except DecodeError Instr
  | .frame f => decodeFrame f
  | .request r => decodeReq r

/-! ### The encoder -/

/-- Format `F24` as one expression (R60): `0b00 ∥ cmd ∥ addr ∥ data`. -/
def frameWord (cmd addr : BitVec 3) (data : Data) : Frame := 0b00#2 ++ cmd ++ addr ++ data

/-- One bit as the lowest bit of a data word (R68). -/
def bitWord (b : Bool) : Data := 0#15 ++ BitVec.ofBool b

/-- A request naming operation `op` for device `dev`, every other field zero. -/
def Req.naming (op : BitVec 4) (dev : Dev) : Req := { Req.zero with op := op, dev := dev }

/-- The encoding of an instruction (R60, R62, R65, R70, R71).  A request's fields that its operation
does not read are zero (log entry 7). -/
def encode : Instr → Encoded
  | .writeInput a d => .frame (frameWord 0b000#3 a d)
  | .updateDac a => .frame (frameWord 0b001#3 a 0#16)
  | .writeInputUpdateAll a d => .frame (frameWord 0b010#3 a d)
  | .writeUpdate a d => .frame (frameWord 0b011#3 a d)
  | .power pm m => .frame (frameWord 0b100#3 0b000#3 (0#10 ++ pm ++ m))
  | .resetCmd b => .frame (frameWord 0b101#3 0b000#3 (bitWord b))
  | .setLdac m => .frame (frameWord 0b110#3 0b000#3 (0#12 ++ m))
  | .reference b => .frame (frameWord 0b111#3 0b000#3 (bitWord b))
  | .setch d sm a v => .request { Req.naming 0x1#4 d with setmode := sm, addr := a, value := v }
  | .setch4 d sm vA vB vC vD =>
    .request { Req.naming 0x2#4 d with setmode := sm, valA := vA, valB := vB, valC := vC, valD := vD }
  | .update d a => .request { Req.naming 0x3#4 d with addr := a }
  | .pwr d pm m => .request { Req.naming 0x4#4 d with pmode := pm, mask := m }
  | .pwrb d pm eA eB eC eD =>
    .request { Req.naming 0x5#4 d with pmode := pm, enA := eA, enB := eB, enC := eC, enD := eD }
  | .pwr4 d pA pB pC pD =>
    .request { Req.naming 0x6#4 d with pmA := pA, pmB := pB, pmC := pC, pmD := pD }
  | .reset d b => .request { Req.naming 0x7#4 d with flag := b }
  | .ldac d m => .request { Req.naming 0x8#4 d with mask := m }
  | .ldacb d eA eB eC eD =>
    .request { Req.naming 0x9#4 d with enA := eA, enB := eB, enC := eC, enD := eD }
  | .ref d b => .request { Req.naming 0xA#4 d with flag := b }

/-! ### The opcode table's rows -/

/-- The record a word of an opcode-table row stands for.  A row of format `F24` has 24 bits, the
frame.  A row of format `REQ` has the 4 bits of `req_op` (one byte when counted in whole bytes); the
other fields are separate wires, here all zero.  Log entry 8. -/
def tableWord (nbits w : Nat) : Option Encoded :=
  if nbits = 24 then some (.frame (BitVec.ofNat 24 w))
  else if nbits = 4 ∨ nbits = 8 then some (.request (Req.naming (BitVec.ofNat 4 w) 0))
  else none

/-- What the decoder reads from a word of an opcode-table row. -/
def decodeTableWord (nbits w : Nat) : Option Instr :=
  match tableWord nbits w with
  | some c => (decode c).toOption
  | none => none

/-- `match` and `mask` of an instruction's row in `spec/opcode_table.json`, over the 24 bits of the
frame or the 4 bits of `req_op`. -/
def tableRow : Instr → Nat × Nat
  | .writeInput _ _ => (0x000000, 0xF80000)
  | .updateDac _ => (0x080000, 0xF8FFFF)
  | .writeInputUpdateAll _ _ => (0x100000, 0xF80000)
  | .writeUpdate _ _ => (0x180000, 0xF80000)
  | .power _ _ => (0x200000, 0xFFFFC0)
  | .resetCmd _ => (0x280000, 0xFFFFFE)
  | .setLdac _ => (0x300000, 0xFFFFF0)
  | .reference _ => (0x380000, 0xFFFFFE)
  | .setch _ _ _ _ => (0x1, 0xF)
  | .setch4 _ _ _ _ _ _ => (0x2, 0xF)
  | .update _ _ => (0x3, 0xF)
  | .pwr _ _ _ => (0x4, 0xF)
  | .pwrb _ _ _ _ _ _ => (0x5, 0xF)
  | .pwr4 _ _ _ _ _ => (0x6, 0xF)
  | .reset _ _ => (0x7, 0xF)
  | .ldac _ _ => (0x8, 0xF)
  | .ldacb _ _ _ _ _ => (0x9, 0xF)
  | .ref _ _ => (0xA, 0xF)

/-- An encoding has the bits that its opcode-table row fixes: over the 24 bits of a frame, or over the
4 bits of `req_op`. -/
def Encoded.matchesRow (c : Encoded) (row : Nat × Nat) : Bool :=
  match c with
  | .frame f => f &&& BitVec.ofNat 24 row.2 == BitVec.ofNat 24 row.1
  | .request r => r.op &&& BitVec.ofNat 4 row.2 == BitVec.ofNat 4 row.1

end Sys2Proof
end

