-- ==== Sys2Proof/Machine/Operands.lean ====
section
/-! DEFINITION. The pure functions every operation is built from: the Frame Encoder's
`encodeFrame` (R100), the channel-mask aggregator (R101), the data-word builders (R102 to R104),
`singleMask` (R116), `setModeCmd` (R121), and the named codes (R62, R63, R66, R69). -/

namespace Sys2Proof.Machine

/-- The command codes (R62). -/
def Cmd.code : Cmd → BitVec 3
  | .writeInput => 0b000#3
  | .updateDac => 0b001#3
  | .writeInputUpdateAll => 0b010#3
  | .writeUpdate => 0b011#3
  | .power => 0b100#3
  | .resetCmd => 0b101#3
  | .setLdac => 0b110#3
  | .reference => 0b111#3

/-! ### Address codes (R63) -/

def channelA : BitVec 3 := 0b000#3
def channelB : BitVec 3 := 0b001#3
def channelC : BitVec 3 := 0b010#3
def channelD : BitVec 3 := 0b011#3
def channelAll : BitVec 3 := 0b111#3

/-! ### Power-mode codes (R66) -/

def pmNormal : BitVec 2 := 0b00#2
def pm1k : BitVec 2 := 0b01#2
def pm100k : BitVec 2 := 0b10#2
def pmTristate : BitVec 2 := 0b11#2

/-! ### Set-mode codes (R69) -/

def inputOnly : BitVec 3 := 0b000#3
def inputDacUpdateAll : BitVec 3 := 0b010#3
def inputDac : BitVec 3 := 0b011#3

/-! ### The functions -/

/-- `encodeFrame(c, a, d)` (R100). -/
def encodeFrame (c a : BitVec 3) (d : Data) : Frame :=
  let byte0 : Byte := (c.setWidth 8 <<< 3) ||| a.setWidth 8
  let byte1 : Byte := d.extractLsb' 8 8
  let byte2 : Byte := d.extractLsb' 0 8
  byte0 ++ byte1 ++ byte2

/-- `zext_4` of a boolean (R8). -/
def zext4 (b : Bool) : BitVec 4 := (BitVec.ofBool b).setWidth 4

/-- `makeChannelMask(D, C, B, A)` (R101). -/
def makeChannelMask (d c b a : Bool) : BitVec 4 :=
  (zext4 d <<< 3) ||| (zext4 c <<< 2) ||| (zext4 b <<< 1) ||| zext4 a

/-- `powerWord(pm, m)` (R102). -/
def powerWord (pm : BitVec 2) (m : BitVec 4) : Data := (pm.setWidth 16 <<< 4) ||| m.setWidth 16

/-- `boolWord(b)` (R103). -/
def boolWord (b : Bool) : Data := (BitVec.ofBool b).setWidth 16

/-- `maskWord(m)` (R104). -/
def maskWord (m : BitVec 4) : Data := m.setWidth 16

/-- `singleMask(i)` (R116). -/
def singleMask (i : BitVec 2) : BitVec 4 := 0b0001#4 <<< i.toNat

/-- `setModeCmd(sm)` (R121). -/
def setModeCmd (sm : BitVec 3) : Option Cmd :=
  if sm = 0b000#3 then some .writeInput
  else if sm = 0b010#3 then some .writeInputUpdateAll
  else if sm = 0b011#3 then some .writeUpdate
  else none

end Sys2Proof.Machine
end

