-- ==== Sys2Proof/Config.lean ====
section
/-! DEFINITION. What the spec leaves to an implementation or to the surrounding software (R6, R7)
and the one free value of the model. -/

namespace Sys2Proof.Config

/-- What `lat` holds when the block has become idle (`lat` after reset and while idle is "any value",
U10; R28, R31).  A free value: it has no body, and no statement may rest on one.  The argument is
the draw's number, `State.draws`.  Log entry 4. -/
opaque idleLat : Nat → Req

/-- `PWR4_ARRAY_BINDING` (R7, R77 d, decision D10): which entry of the software's power-mode array is
which channel's.  OPEN: a property of the surrounding software, so an argument of
`Machine.Calls.powerUpDownModes` and of nothing in the block. -/
inductive ArrayBinding where
  | entryKIsOrdinalK
  | entryKIsOrdinal3MinusK
  deriving DecidableEq, Repr

/-- `FRAME_W` (R6). -/
def frameW : Nat := 24

/-- `N_CH`, the number of channels (R6). -/
def nCh : Nat := 4

/-- `F_SCLK_MAX` in MHz (R6, R48, R199): informative, no definition uses it. -/
def fSclkMaxMHz : Nat := 50

/-- The least time of one frame on the wire in ns: 24 clocks at `F_SCLK_MAX` (R199).  Informative: the
model carries no time (R200). -/
def leastFrameNs : Nat := frameW * 1000 / fSclkMaxMHz

end Sys2Proof.Config
end

