-- ==== Sys2Proof/Machine/State.lean ====
section
/-! DEFINITION. The machine's state as plain data, the reasons a step can stop, and the state right
after reset (R20 to R33, R55, R190).  The block has no registers, program counter, flags, control
registers or memory (R21 to R25, R32); what it keeps is the sequencer of R28.  Beside it stand the
input signals of the coming clock edges and the trace, the block's observable (R56). -/

namespace Sys2Proof.Machine

/-- The input signals at one rising edge of `clk`, where all of them are sampled (R29, R55). -/
structure Edge where
  /-- `rst` (R29, R190). -/
  rst      : Bool
  /-- `req_valid` (R29). -/
  reqValid : Bool
  /-- The other `req_*` signals (R29, R70). -/
  req      : Req
  /-- `frm_ready`: the transport has taken the offered frame and finished sending it (R55). -/
  frmReady : Bool
  /-- The transport aborts the host process in the transfer it is making (R172 "succeed or abort").
  It is no signal of the block (R172, R181); the premise `TransportReliable` excludes it. -/
  abort    : Bool
  deriving DecidableEq, Repr, Inhabited

/-- The edge at which nothing is asked of the block: no reset, no request, and a transport that has
finished with whatever is offered (`TransportReliable`, R172). -/
def Edge.quiet : Edge :=
  { rst := false, reqValid := false, req := Req.zero, frmReady := true, abort := false }

/-- The event `Emit(dev, f)` (R40, R105). -/
structure Emission where
  dev   : Dev
  frame : Frame
  deriving DecidableEq, Repr

structure State where
  /-- `busy` (R28): true from the accept of a request until its last frame has been emitted. -/
  busy  : Bool
  /-- `lat` (R28): the copy of the accepted request. -/
  lat   : Req
  /-- `fidx` (R22, R28): how many frames of this request have been emitted. -/
  fidx  : BitVec 2
  /-- The input signals of the coming clock edges, the next first; after them every edge is
  `Edge.quiet` (the surroundings, log entry 1). -/
  edges : List Edge
  /-- The trace: the `Emit` events that have happened, in order (R56, R12). -/
  trace : List Emission
  /-- The frames that were on offer when `rst` came (R190): the transport's to finish or cut short, so
  whether the chip got them is not known (the model's own record, log entry 6). -/
  cut   : List Emission
  /-- How many free values `Config.idleLat` has given (the model's own field, log entry 4). -/
  draws : Nat
  deriving DecidableEq, Repr

/-- Why a step faults. -/
inductive Fault where
  /-- Raised by `step` at an edge where a frame is on offer and the transport aborts: terminal, nothing
  further is emitted, never a retry (R172, U4).  Safe: the branch that the premise
  `TransportReliable` excludes. -/
  | transportAborted
  deriving DecidableEq, Repr

/-- Why a step is refused. -/
inductive Refusal where
  /-- An instruction that has no meaning yet, raised by its arm of `exec`; no arm does.  Safe. -/
  | notModelled (mnemonic : String)
  /-- Raised by `step` for an offered frame that is no frame command.  Every frame that a request
  makes is one (`Laws.decodeFrame_of_mem_frames`), so it never happens.  Safe. -/
  | foreignFrame (f : Frame)
  deriving DecidableEq, Repr

/-- The state right after reset (R31, R190): idle, nothing in flight, no frame emitted (R191).  `lat`
is unspecified there and has no effect (R28, R31); the model names the all-zero record (log entry 5,
DESIGN CHOICE). -/
def State.reset : State :=
  { busy := false, lat := Req.zero, fidx := 0#2, edges := [], trace := [], cut := [], draws := 0 }

end Sys2Proof.Machine
end

