-- ==== Sys2Proof/Machine/Frames.lean ====
section
/-! DEFINITION. `frames(req)`: the ordered list of frames a request emits (R120), one definition per
operation, and the multiplexer over `req_op` (R71, R72, R73).  A function of the request alone (R20). -/

namespace Sys2Proof.Machine

/-- `frames(SETCH)` (R122). -/
def framesSetch (setmode addr : BitVec 3) (value : Data) : List Frame :=
  match setModeCmd setmode with
  | none => []
  | some c => [encodeFrame (Cmd.code c) addr value]

/-- `frames(SETCH4)` (R123), in the order A, B, C, D (decision D9, conflict C2). -/
def framesSetch4 (setmode : BitVec 3) (valA valB valC valD : Data) : List Frame :=
  match setModeCmd setmode with
  | none => []
  | some c =>
    [encodeFrame (Cmd.code c) channelA valA, encodeFrame (Cmd.code c) channelB valB,
     encodeFrame (Cmd.code c) channelC valC, encodeFrame (Cmd.code c) channelD valD]

/-- `frames(UPDATE)` (R124). -/
def framesUpdate (addr : BitVec 3) : List Frame :=
  [encodeFrame (Cmd.code .updateDac) addr 0x0000#16]

/-- `frames(PWR)` (R140). -/
def framesPwr (pmode : BitVec 2) (mask : BitVec 4) : List Frame :=
  [encodeFrame (Cmd.code .power) 0b000#3 (powerWord pmode mask)]

/-- `frames(PWRB)` (R141). -/
def framesPwrb (pmode : BitVec 2) (enA enB enC enD : Bool) : List Frame :=
  [encodeFrame (Cmd.code .power) 0b000#3 (powerWord pmode (makeChannelMask enD enC enB enA))]

/-- `frames(PWR4)` (R142). -/
def framesPwr4 (pmA pmB pmC pmD : BitVec 2) : List Frame :=
  [encodeFrame (Cmd.code .power) 0b000#3 (powerWord pmA (singleMask 0)),
   encodeFrame (Cmd.code .power) 0b000#3 (powerWord pmB (singleMask 1)),
   encodeFrame (Cmd.code .power) 0b000#3 (powerWord pmC (singleMask 2)),
   encodeFrame (Cmd.code .power) 0b000#3 (powerWord pmD (singleMask 3))]

/-- `frames(RESET)` (R143). -/
def framesReset (full : Bool) : List Frame :=
  [encodeFrame (Cmd.code .resetCmd) 0b000#3 (boolWord full)]

/-- `frames(LDAC)` (R144). -/
def framesLdac (mask : BitVec 4) : List Frame :=
  [encodeFrame (Cmd.code .setLdac) 0b000#3 (maskWord mask)]

/-- `frames(LDACB)` (R145). -/
def framesLdacb (enA enB enC enD : Bool) : List Frame :=
  [encodeFrame (Cmd.code .setLdac) 0b000#3 (maskWord (makeChannelMask enD enC enB enA))]

/-- `frames(REF)` (R146). -/
def framesRef (yes : Bool) : List Frame :=
  [encodeFrame (Cmd.code .reference) 0b000#3 (boolWord yes)]

/-- `frames(req)` (R120, R73).  A reserved `req_op` emits nothing (R72). -/
def frames (r : Req) : List Frame :=
  match r.op with
  | 0x1#4 => framesSetch r.setmode r.addr r.value
  | 0x2#4 => framesSetch4 r.setmode r.valA r.valB r.valC r.valD
  | 0x3#4 => framesUpdate r.addr
  | 0x4#4 => framesPwr r.pmode r.mask
  | 0x5#4 => framesPwrb r.pmode r.enA r.enB r.enC r.enD
  | 0x6#4 => framesPwr4 r.pmA r.pmB r.pmC r.pmD
  | 0x7#4 => framesReset r.flag
  | 0x8#4 => framesLdac r.mask
  | 0x9#4 => framesLdacb r.enA r.enB r.enC r.enD
  | 0xA#4 => framesRef r.flag
  | _ => []

/-- The `Emit` events a request stands for: every frame to the request's device (R41, R120). -/
def emissions (r : Req) : List Emission := (frames r).map fun f => { dev := r.dev, frame := f }

end Sys2Proof.Machine
end

