-- ==== Sys2Proof/Machine/Flags.lean ====
section
/-! DEFINITION. Status.  The block has no flags, condition codes or status outputs (R23), so no
instruction computes one.  What an observer sees of its inside is the handshake: `req_ready` (R29,
R33) and the frame output port `frm_valid`, `frm_dev`, `frm_bits` (R55), all computed from the
sequencer, which is the only state there is (R28). -/

namespace Sys2Proof.Machine

/-- The input signals at the coming clock edge (R29). -/
def State.now (s : State) : Edge := s.edges.headD Edge.quiet

/-- `req_ready` equals `not busy` (R29). -/
def State.reqReady (s : State) : Bool := !s.busy

/-- The frame on offer: frame `fidx` of the request in progress, for that request's device; none while
the block is idle (R28, R55).  `frm_dev` and `frm_bits` have a value exactly while a frame is on
offer. -/
def State.offer (s : State) : Option Emission :=
  if s.busy then (emissions s.lat)[s.fidx.toNat]? else none

/-- `frm_valid` (R55). -/
def State.frmValid (s : State) : Bool := s.offer.isSome

/-- `frm_dev` (R55). -/
def State.frmDev (s : State) : Option Dev := s.offer.map Emission.dev

/-- `frm_bits` (R55). -/
def State.frmBits (s : State) : Option Frame := s.offer.map Emission.frame

/-- The frames of the request in progress that have not been emitted (R28, R49). -/
def State.pending (s : State) : List Emission :=
  if s.busy then (emissions s.lat).drop s.fidx.toNat else []

end Sys2Proof.Machine
end

