-- ==== Sys2Proof/Machine/Ops.lean ====
section
/-! DEFINITION. The named operations on the state: what one rising clock edge can do (R29, R55,
R120, R190).  Each operation uses up one edge of the input signals.

Exceptions: the block raises none (R170), takes no interrupt (R173), saves nothing, has no handler
and no return (R175); so there is no exception entry and no return from one to model.  What comes
nearest is `State.toIdle`, the one way back to idle: "after an invalid set-mode the block is in
exactly the state it would be in after any completed operation" (R175).

Memory: the block has none (R32); its one access is the write-only `Emit` (R40). -/

namespace Sys2Proof.Machine

/-- The edge is over. -/
def State.tick (s : State) : State := { s with edges := s.edges.tail }

/-- Idle with nothing remembered: `busy` 0, `fidx` 0, `lat` any value (R20, R22, R28, R31, U10). -/
def State.toIdle (s : State) : State :=
  { s with busy := false, fidx := 0#2, lat := Config.idleLat s.draws, draws := s.draws + 1 }

/-- Latch an accepted request (R28, R51): `fidx` counts from 0 (R22). -/
def State.latch (r : Req) (s : State) : State := { s with busy := true, lat := r, fidx := 0#2 }

/-- The event `Emit(dev, f)` enters the trace (R56). -/
def State.record (e : Emission) (s : State) : State := { s with trace := s.trace ++ [e] }

/-- The frame was on offer when `rst` came (R190). -/
def State.recordCut (e : Emission) (s : State) : State := { s with cut := s.cut ++ [e] }

/-- The next frame of the request, or idle after the last one (R28, R120). -/
def State.advance (s : State) : State :=
  if s.fidx.toNat + 1 < (frames s.lat).length then { s with fidx := s.fidx + 1#2 } else s.toIdle

/-- A request is presented (R29, R120): accepted while `req_ready` is 1, turned away with no effect
otherwise.  An accepted request without frames completes at once (R120, R171, R72). -/
def accept (r : Req) (s : State) : Host.Outcome State Fault Refusal :=
  if s.reqReady then
    match frames r with
    | [] => .next s.tick.toIdle
    | _ :: _ => .next (s.tick.latch r)
  else .next s.tick

/-- The frame `e` on offer has been taken and sent (R55, R105): `Emit(e.dev, e.frame)`. -/
def State.emitted (e : Emission) (s : State) : State := (s.tick.record e).advance

/-- A frame command is executed: `Emit(frm_dev, f)` happens at an edge where the block offers `f` and
`frm_ready` is 1 (R55).  Otherwise nothing happens: the offer is held, and no frame is emitted that
no request asked for (R49 d). -/
def emitOffered (f : Frame) (s : State) : Host.Outcome State Fault Refusal :=
  match s.offer with
  | some e => if s.now.frmReady && e.frame == f then .next (s.emitted e) else .next s.tick
  | none => .next s.tick

/-- An edge with `rst` = 1 (R190): idle; the frames not yet emitted are abandoned, no frame is emitted
because of reset (R191), and a frame on offer is the transport's to finish or cut short. -/
def State.rstEdge (s : State) : State :=
  match s.offer with
  | some e => (s.recordCut e).tick.toIdle
  | none => s.tick.toIdle

/-- The transport aborts in the transfer it is making (R172). -/
def State.aborting (s : State) : Bool := s.now.abort && s.frmValid

/-- An edge at which no instruction is executed: no request is presented and no frame is on offer.  A
request in progress whose list is used up completes (R120). -/
def State.pass (s : State) : State := if s.busy then s.tick.toIdle else s.tick

end Sys2Proof.Machine
end

