-- ==== Sys2Proof/Machine/ChannelData.lean ====
section
/-! DEFINITION. The operations that write and update channels: `SETCH`, `SETCH4`, `UPDATE` (R122 to
R124).  An operation is accepted; its frames (`Machine.Frames`) are then emitted in order by the
frame commands (R120). -/

namespace Sys2Proof.Machine

/-- `SETCH` (R122). -/
def execSetch (dev : Dev) (setmode addr : BitVec 3) (value : Data) (s : State) :
    Host.Outcome State Fault Refusal :=
  accept { Req.naming 0x1#4 dev with setmode := setmode, addr := addr, value := value } s

/-- `SETCH4` (R123). -/
def execSetch4 (dev : Dev) (setmode : BitVec 3) (valA valB valC valD : Data) (s : State) :
    Host.Outcome State Fault Refusal :=
  accept { Req.naming 0x2#4 dev with
    setmode := setmode, valA := valA, valB := valB, valC := valC, valD := valD } s

/-- `UPDATE` (R124). -/
def execUpdate (dev : Dev) (addr : BitVec 3) (s : State) : Host.Outcome State Fault Refusal :=
  accept { Req.naming 0x3#4 dev with addr := addr } s

end Sys2Proof.Machine
end

