-- ==== Sys2Proof/Machine/Control.lean ====
section
/-! DEFINITION. The control operations: `PWR`, `PWRB`, `PWR4`, `RESET`, `LDAC`, `LDACB`, `REF`
(R140 to R147).  None is privileged (R176).  Each is accepted; its frames are then emitted in order
by the frame commands (R120). -/

namespace Sys2Proof.Machine

/-- `PWR` (R140). -/
def execPwr (dev : Dev) (pmode : BitVec 2) (mask : BitVec 4) (s : State) :
    Host.Outcome State Fault Refusal :=
  accept { Req.naming 0x4#4 dev with pmode := pmode, mask := mask } s

/-- `PWRB` (R141). -/
def execPwrb (dev : Dev) (pmode : BitVec 2) (enA enB enC enD : Bool) (s : State) :
    Host.Outcome State Fault Refusal :=
  accept { Req.naming 0x5#4 dev with
    pmode := pmode, enA := enA, enB := enB, enC := enC, enD := enD } s

/-- `PWR4` (R142). -/
def execPwr4 (dev : Dev) (pmA pmB pmC pmD : BitVec 2) (s : State) :
    Host.Outcome State Fault Refusal :=
  accept { Req.naming 0x6#4 dev with pmA := pmA, pmB := pmB, pmC := pmC, pmD := pmD } s

/-- `RESET` (R143): it resets the chip, not the block (R192). -/
def execReset (dev : Dev) (full : Bool) (s : State) : Host.Outcome State Fault Refusal :=
  accept { Req.naming 0x7#4 dev with flag := full } s

/-- `LDAC` (R144). -/
def execLdac (dev : Dev) (mask : BitVec 4) (s : State) : Host.Outcome State Fault Refusal :=
  accept { Req.naming 0x8#4 dev with mask := mask } s

/-- `LDACB` (R145). -/
def execLdacb (dev : Dev) (enA enB enC enD : Bool) (s : State) : Host.Outcome State Fault Refusal :=
  accept { Req.naming 0x9#4 dev with enA := enA, enB := enB, enC := enC, enD := enD } s

/-- `REF` (R146). -/
def execRef (dev : Dev) (yes : Bool) (s : State) : Host.Outcome State Fault Refusal :=
  accept { Req.naming 0xA#4 dev with flag := yes } s

end Sys2Proof.Machine
end

