-- ==== Sys2Proof/Machine/FrameCommands.lean ====
section
/-! DEFINITION. The eight frame commands (R106 to R113): the block emits the frame.  What the chip
does with it is outside the spec (R5, R24, decision D24). -/

namespace Sys2Proof.Machine

/-- `WRITE_INPUT` (R106). -/
def execWriteInput (addr : BitVec 3) (data : Data) (s : State) : Host.Outcome State Fault Refusal :=
  emitOffered (encodeFrame (Cmd.code .writeInput) addr data) s

/-- `UPDATE_DAC` (R107): data always 0x0000. -/
def execUpdateDac (addr : BitVec 3) (s : State) : Host.Outcome State Fault Refusal :=
  emitOffered (encodeFrame (Cmd.code .updateDac) addr 0x0000#16) s

/-- `WRITE_INPUT_UPDATE_ALL` (R108). -/
def execWriteInputUpdateAll (addr : BitVec 3) (data : Data) (s : State) :
    Host.Outcome State Fault Refusal :=
  emitOffered (encodeFrame (Cmd.code .writeInputUpdateAll) addr data) s

/-- `WRITE_UPDATE` (R109). -/
def execWriteUpdate (addr : BitVec 3) (data : Data) (s : State) : Host.Outcome State Fault Refusal :=
  emitOffered (encodeFrame (Cmd.code .writeUpdate) addr data) s

/-- `POWER` (R110): address 000. -/
def execPower (pmode : BitVec 2) (mask : BitVec 4) (s : State) : Host.Outcome State Fault Refusal :=
  emitOffered (encodeFrame (Cmd.code .power) 0b000#3 (powerWord pmode mask)) s

/-- `RESET_CMD` (R111): address 000. -/
def execResetCmd (full : Bool) (s : State) : Host.Outcome State Fault Refusal :=
  emitOffered (encodeFrame (Cmd.code .resetCmd) 0b000#3 (boolWord full)) s

/-- `SET_LDAC` (R112): address 000 (decision D6). -/
def execSetLdac (mask : BitVec 4) (s : State) : Host.Outcome State Fault Refusal :=
  emitOffered (encodeFrame (Cmd.code .setLdac) 0b000#3 (maskWord mask)) s

/-- `REFERENCE` (R113): address 000. -/
def execReference (yes : Bool) (s : State) : Host.Outcome State Fault Refusal :=
  emitOffered (encodeFrame (Cmd.code .reference) 0b000#3 (boolWord yes)) s

end Sys2Proof.Machine
end

