-- ==== Sys2Proof/Machine/Dispatch.lean ====
section
/-! DEFINITION. One arm per instruction, each one direct call of its meaning. -/

namespace Sys2Proof.Machine

/-- What an instruction does at one clock edge. -/
def exec (i : Instr) (s : State) : Host.Outcome State Fault Refusal :=
  match i with
  -- frame commands
  | .writeInput addr data => Sys2Proof.Machine.execWriteInput addr data s
  | .updateDac addr => Sys2Proof.Machine.execUpdateDac addr s
  | .writeInputUpdateAll addr data => Sys2Proof.Machine.execWriteInputUpdateAll addr data s
  | .writeUpdate addr data => Sys2Proof.Machine.execWriteUpdate addr data s
  | .power pmode mask => Sys2Proof.Machine.execPower pmode mask s
  | .resetCmd full => Sys2Proof.Machine.execResetCmd full s
  | .setLdac mask => Sys2Proof.Machine.execSetLdac mask s
  | .reference yes => Sys2Proof.Machine.execReference yes s
  -- operations
  | .setch dev setmode addr value => Sys2Proof.Machine.execSetch dev setmode addr value s
  | .setch4 dev setmode vA vB vC vD => Sys2Proof.Machine.execSetch4 dev setmode vA vB vC vD s
  | .update dev addr => Sys2Proof.Machine.execUpdate dev addr s
  | .pwr dev pmode mask => Sys2Proof.Machine.execPwr dev pmode mask s
  | .pwrb dev pmode eA eB eC eD => Sys2Proof.Machine.execPwrb dev pmode eA eB eC eD s
  | .pwr4 dev pA pB pC pD => Sys2Proof.Machine.execPwr4 dev pA pB pC pD s
  | .reset dev full => Sys2Proof.Machine.execReset dev full s
  | .ldac dev mask => Sys2Proof.Machine.execLdac dev mask s
  | .ldacb dev eA eB eC eD => Sys2Proof.Machine.execLdacb dev eA eB eC eD s
  | .ref dev yes => Sys2Proof.Machine.execRef dev yes s

end Sys2Proof.Machine
end

