-- ==== Sys2Proof/Machine/Fetch.lean ====
section
/-! DEFINITION. Where the next instruction comes from (R22, R29, R55, R120): while the block is busy,
the frame on offer; while it is idle, the request on the port.  And the reverse, placing an
instruction there. -/

namespace Sys2Proof.Machine

/-- The instruction of the coming edge, if there is one: the frame command on offer while busy, the
request presented with `req_valid` while idle (R29, R55). -/
def State.fetch (s : State) : Option (Except DecodeError Instr) :=
  if s.busy then s.offer.map fun e => decodeFrame e.frame
  else if s.now.reqValid then some (decodeReq s.now.req) else none

/-- What an edge does whose request or frame is no instruction.  A reserved `req_op` is accepted,
emits no frame and completes (R72, decision D8).  A frame that is no frame command is never on
offer. -/
def rejected (e : DecodeError) (s : State) : Host.Outcome State Fault Refusal :=
  match e with
  | .reservedSelector _ => accept s.now.req s
  | .reservedTopBits _ => .refused (.foreignFrame (s.frmBits.getD 0))
  | .strayBits _ => .refused (.foreignFrame (s.frmBits.getD 0))
  | .truncated => .refused (.foreignFrame (s.frmBits.getD 0))

/-- The operation that emits a frame command's frame first, for device `dev` (R73: every one of the
eight frame commands is produced by some operation). -/
def requestFor (dev : Dev) : Instr → Option Req
  | .writeInput a d =>
    some { Req.naming 0x1#4 dev with setmode := inputOnly, addr := a, value := d }
  | .updateDac a => some { Req.naming 0x3#4 dev with addr := a }
  | .writeInputUpdateAll a d =>
    some { Req.naming 0x1#4 dev with setmode := inputDacUpdateAll, addr := a, value := d }
  | .writeUpdate a d =>
    some { Req.naming 0x1#4 dev with setmode := inputDac, addr := a, value := d }
  | .power pm m => some { Req.naming 0x4#4 dev with pmode := pm, mask := m }
  | .resetCmd b => some { Req.naming 0x7#4 dev with flag := b }
  | .setLdac m => some { Req.naming 0x8#4 dev with mask := m }
  | .reference b => some { Req.naming 0xA#4 dev with flag := b }
  | .setch _ _ _ _ => none
  | .setch4 _ _ _ _ _ _ => none
  | .update _ _ => none
  | .pwr _ _ _ => none
  | .pwrb _ _ _ _ _ _ => none
  | .pwr4 _ _ _ _ _ => none
  | .reset _ _ => none
  | .ldac _ _ => none
  | .ldacb _ _ _ _ _ => none
  | .ref _ _ => none

/-- A request on the port of an idle block at the coming edge (R29). -/
def State.placeRequest (r : Req) (s : State) : State :=
  { s with busy := false, fidx := 0#2,
           edges := { Edge.quiet with reqValid := true, req := r } :: s.edges }

/-- A frame on offer at the coming edge, at which the transport finishes with it: the request that
emits it is in progress (R28, R55).  A frame the block never emits is placed nowhere. -/
def State.placeFrame (f : Frame) (s : State) : State :=
  match decodeFrame f with
  | .error _ => s
  | .ok i =>
    match requestFor 0 i with
    | some r => { s with busy := true, lat := r, fidx := 0#2, edges := Edge.quiet :: s.edges }
    | none => s

end Sys2Proof.Machine
end

