-- ==== Sys2Proof/Machine/Step.lean ====
section
/-! DEFINITION. One step: one rising edge of `clk` (R29).  `rst` has priority over everything (R190);
then the transport's abort (R172); then the instruction of the edge (R120).  Also the placing of an
instruction where the next step finds it. -/

namespace Sys2Proof.Machine

def step (s : State) : Host.Outcome State Fault Refusal :=
  if s.now.rst then .next s.rstEdge
  else if s.aborting then .fault .transportAborted
  else
    match s.fetch with
    | some (.ok i) => exec i s
    | some (.error e) => rejected e s
    | none => .next s.pass

/-- `s` with the instruction of an opcode-table word where `step` fetches it: a row of format `REQ` as
the request on the port, a row of format `F24` as the frame on offer.  Log entry 9. -/
def State.withFetchWord (s : State) (nbits w : Nat) : State :=
  match tableWord nbits w with
  | some (.request r) => s.placeRequest r
  | some (.frame f) => s.placeFrame f
  | none => s

end Sys2Proof.Machine
end

