-- ==== Sys2Proof/Machine/Calls.lean ====
section
/-! DEFINITION. The written forms of a request (R75), per-channel arguments D first, and the
software's overloads as pseudo-instructions (R76, R77): each expands to one of the ten operations. -/

namespace Sys2Proof.Machine.Calls

/-! ### Written forms (R75) -/

def setChannel (dev : Dev) (mode addr : BitVec 3) (value : Data) : Instr :=
  .setch dev mode addr value

def setChannel4 (dev : Dev) (mode : BitVec 3) (vD vC vB vA : Data) : Instr :=
  .setch4 dev mode vA vB vC vD

def updateChannel (dev : Dev) (addr : BitVec 3) : Instr := .update dev addr

def powerUpDown (dev : Dev) (pmode : BitVec 2) (mask : BitVec 4) : Instr := .pwr dev pmode mask

def powerUpDownB (dev : Dev) (pmode : BitVec 2) (d c b a : Bool) : Instr := .pwrb dev pmode a b c d

def powerUpDown4 (dev : Dev) (pmD pmC pmB pmA : BitVec 2) : Instr := .pwr4 dev pmA pmB pmC pmD

def resetChip (dev : Dev) (full : Bool) : Instr := .reset dev full

def setInputMode (dev : Dev) (mask : BitVec 4) : Instr := .ldac dev mask

def setInputModeB (dev : Dev) (d c b a : Bool) : Instr := .ldacb dev a b c d

def useInternalReference (dev : Dev) (yes : Bool) : Instr := .ref dev yes

/-! ### Overloads (R76, R77) -/

/-- One value for all channels: `SETCH` with address ALL (R76). -/
def setChannelAll (dev : Dev) (mode : BitVec 3) (value : Data) : Instr :=
  setChannel dev mode channelAll value

/-- The array form of setChannel: index 0 = D down to index 3 = A (R77 b). -/
def setChannelArray (dev : Dev) (mode : BitVec 3) (xs : Vector Data 4) : Instr :=
  setChannel4 dev mode xs[0] xs[1] xs[2] xs[3]

/-- The boolean array of powerUpDown: index 0 = D (R77 c, decision D10). -/
def powerUpDownArray (dev : Dev) (pmode : BitVec 2) (xs : Vector Bool 4) : Instr :=
  powerUpDownB dev pmode xs[0] xs[1] xs[2] xs[3]

/-- The boolean array of setInputMode: index 0 = D (R77 c, decision D10). -/
def setInputModeArray (dev : Dev) (xs : Vector Bool 4) : Instr :=
  setInputModeB dev xs[0] xs[1] xs[2] xs[3]

/-- The power-mode array, under either binding of `PWR4_ARRAY_BINDING` (R77 d, conflict C3). -/
def powerUpDownModes (binding : Config.ArrayBinding) (dev : Dev) (xs : Vector (BitVec 2) 4) : Instr :=
  match binding with
  | .entryKIsOrdinalK => powerUpDown4 dev xs[3] xs[2] xs[1] xs[0]
  | .entryKIsOrdinal3MinusK => powerUpDown4 dev xs[0] xs[1] xs[2] xs[3]

/-- A mask that software holds in a wider variable: a call with a bit above bit 3 breaks the
ChannelMask invariant and is no call (U8, decision D11). -/
def maskOf (n : Nat) : Option (BitVec 4) := if n < 16 then some (BitVec.ofNat 4 n) else none

end Sys2Proof.Machine.Calls
end

