-- ==== Sys2Proof/Machine/Transport.lean ====
section
/-! DEFINITION. What an `Emit(dev, f)` is on the wire: the contract of the transport, as far as the
spec gives it (R42 to R45, R48, R54, R105), computed from the trace.  The transport itself is outside
the block (R5, R55). -/

namespace Sys2Proof.Machine

/-- The three bytes of a frame in the order sent (R42). -/
def frameBytes (f : Frame) : List Byte := [f.extractLsb' 16 8, f.extractLsb' 8 8, f.extractLsb' 0 8]

/-- A byte's bits, most significant first (R43). -/
def bitsMsbFirst (b : Byte) : List Bool :=
  [b.getLsbD 7, b.getLsbD 6, b.getLsbD 5, b.getLsbD 4,
   b.getLsbD 3, b.getLsbD 2, b.getLsbD 1, b.getLsbD 0]

/-- The 24 bits of a frame in the order sent (R42, R43). -/
def serialBits (f : Frame) : List Bool := (frameBytes f).flatMap bitsMsbFirst

/-- What happens on the serial wires (R44, R48, R54). -/
inductive WireEvent where
  /-- The chip-select of `dev`, active-low, goes low: asserted. -/
  | select (dev : Dev)
  /-- The serial clock, idle low, rises, with the data line at this level. -/
  | sclkRise (mosi : Bool)
  /-- The serial clock falls: the selected chip samples the data line. -/
  | sclkFall
  /-- The chip-select of `dev` goes high: released. -/
  | deselect (dev : Dev)
  deriving DecidableEq, Repr

/-- One bit on the wire: the data line changes by the rising edge, the chip samples on the falling
edge (R48). -/
def wireBit (b : Bool) : List WireEvent := [.sclkRise b, .sclkFall]

/-- `Emit(dev, f)` on the wire (R105): select; transfer three bytes, each most significant bit first;
deselect. -/
def wireOf (e : Emission) : List WireEvent :=
  .select e.dev :: ((serialBits e.frame).flatMap wireBit ++ [.deselect e.dev])

/-- The wire of a whole trace: one chip-select window after the other (R44, R49, R195). -/
def wire (es : List Emission) : List WireEvent := es.flatMap wireOf

/-- The part of a trace that goes to one device (R56). -/
def deviceTrace (d : Dev) (es : List Emission) : List Emission := es.filter fun e => e.dev == d

/-- What listens on the wires: the device whose chip-select is low, the data line, the bits sampled in
the window, and the windows that have closed, each with the device that was selected.  It is no part
of the block; it says what a wire can be read as. -/
structure Listener where
  selected : Option Dev
  mosi     : Bool
  shift    : List Bool
  windows  : List (Dev × List Bool)
  deriving DecidableEq, Repr

def Listener.start : Listener := { selected := none, mosi := false, shift := [], windows := [] }

/-- Samples on the falling edge while a device is selected; a window opens when a chip-select goes low
and closes, under the device selected, when that same chip-select goes high (R44, R48).  The release
of a device that is not selected closes nothing; a select inside a window loses it. -/
def Listener.hear (l : Listener) : WireEvent → Listener
  | .select d => { l with selected := some d, shift := [] }
  | .sclkRise b => { l with mosi := b }
  | .sclkFall => { l with shift := if l.selected.isSome then l.shift ++ [l.mosi] else l.shift }
  | .deselect d =>
    match l.selected with
    | some sel =>
      if sel = d then
        { l with selected := none, shift := [], windows := l.windows ++ [(sel, l.shift)] }
      else l
    | none => l

/-- A listener's windows after a whole wire. -/
def heard (ws : List WireEvent) : List (Dev × List Bool) := (ws.foldl Listener.hear .start).windows

end Sys2Proof.Machine
end

