-- ==== Sys2Proof/WellFormed.lean ====
section
/-! DEFINITION. Which instructions lie inside the documented domain: the address codes (R63, R64)
and, for a given `CS_ID_W`, the device identifiers (R7, R41).  Every other operand has a field of
exactly its width and every bit pattern of it is in range (R180 b, c); an unrecognised set-mode is
an admitted input with a stated effect (R171, U3), so it is no check here.  The machine runs
instructions outside this domain too (R180 f): the predicate is the requester's duty, not a guard. -/

namespace Sys2Proof

/-- The five defined address codes A, B, C, D, ALL (R63); 100, 101 and 110 are the three unused
ones (R64). -/
def addrDefined (a : BitVec 3) : Bool :=
  a == 0b000#3 || a == 0b001#3 || a == 0b010#3 || a == 0b011#3 || a == 0b111#3

/-- The three recognised set-mode codes (R69). -/
def setmodeRecognised (sm : BitVec 3) : Bool :=
  sm == 0b000#3 || sm == 0b010#3 || sm == 0b011#3

/-- The address operand, where the instruction has one. -/
def Instr.addr? : Instr → Option (BitVec 3)
  | .writeInput a _ => some a
  | .updateDac a => some a
  | .writeInputUpdateAll a _ => some a
  | .writeUpdate a _ => some a
  | .power _ _ => none
  | .resetCmd _ => none
  | .setLdac _ => none
  | .reference _ => none
  | .setch _ _ a _ => some a
  | .setch4 _ _ _ _ _ _ => none
  | .update _ a => some a
  | .pwr _ _ _ => none
  | .pwrb _ _ _ _ _ _ => none
  | .pwr4 _ _ _ _ _ => none
  | .reset _ _ => none
  | .ldac _ _ => none
  | .ldacb _ _ _ _ _ => none
  | .ref _ _ => none

/-- The device an operation is for.  A frame command names none: its frame goes to the device of
the request in progress (R55). -/
def Instr.dev? : Instr → Option Dev
  | .writeInput _ _ => none
  | .updateDac _ => none
  | .writeInputUpdateAll _ _ => none
  | .writeUpdate _ _ => none
  | .power _ _ => none
  | .resetCmd _ => none
  | .setLdac _ => none
  | .reference _ => none
  | .setch d _ _ _ => some d
  | .setch4 d _ _ _ _ _ => some d
  | .update d _ => some d
  | .pwr d _ _ => some d
  | .pwrb d _ _ _ _ _ => some d
  | .pwr4 d _ _ _ _ => some d
  | .reset d _ => some d
  | .ldac d _ => some d
  | .ldacb d _ _ _ _ => some d
  | .ref d _ => some d

/-- The address is one of {A, B, C, D, ALL} (R63, R180 f). -/
def Instr.wf (i : Instr) : Bool := i.addr?.all addrDefined

/-- The identifier is one of a port of `w` bits (R7 `CS_ID_W`, decision D13). -/
def devFits (w : Nat) (d : Dev) : Bool := decide (d < 2 ^ w)

/-- The instruction can be presented on a request port whose `req_dev` has `w` bits. -/
def Instr.fits (w : Nat) (i : Instr) : Bool := i.dev?.all (devFits w)

end Sys2Proof
end

