-- ==== Sys2Proof/Safety.lean ====
section
/-! DEFINITION. What counts as a safe run, in the terms statements use: the premises on the
surroundings (R172, R190, R193) and the invariants of the block and of its trace (R28, R115). -/

namespace Sys2Proof.Machine

/-! ### Premises on the surroundings -/

/-- `TransportReliable` (R7, R172): no transfer aborts.  That every offered frame is taken in finite
time holds of every state: the edges listed are finitely many and after them `frm_ready` is 1. -/
def TransportReliable (s : State) : Prop := ∀ e ∈ s.edges, e.abort = false

/-- Reset is the launch state only (R190, U9). -/
def NoReset (s : State) : Prop := ∀ e ∈ s.edges, e.rst = false

/-- At the next `n` edges there is no reset, the transport does not abort and `frm_ready` is 1. -/
def Undisturbed (n : Nat) (es : List Edge) : Prop :=
  ∀ e ∈ es.take n, e.rst = false ∧ e.abort = false ∧ e.frmReady = true

/-- Every request presented names an operation (R72, U6), has a defined address where it reads one
(R180 f, U1), and a device identifier of `w` bits (R7). -/
def RequesterInDomain (w : Nat) (s : State) : Prop :=
  ∀ e ∈ s.edges, e.reqValid = true →
    ∃ i, decodeReq e.req = .ok i ∧ i.wf = true ∧ i.fits w = true

/-! ### Invariants -/

/-- The sequencer (R22, R28, R31): while busy, a frame is on offer; while idle, `fidx` is 0. -/
def SequencerOk (s : State) : Prop :=
  (s.busy = true → s.fidx.toNat < (frames s.lat).length) ∧ (s.busy = false → s.fidx = 0#2)

/-- A frame the block can emit (R115), with the addresses that `ok` admits in the rows that copy an
address: `f[23:22]` is 00; `UPDATE_DAC` has data 0; `POWER`, `RESET_CMD`, `SET_LDAC` and `REFERENCE`
have address 000 and only their operand's data bits. -/
def EmittableAt (ok : BitVec 3 → Bool) (f : Frame) : Prop :=
  (∃ c a d, (c = 0b000#3 ∨ c = 0b010#3 ∨ c = 0b011#3) ∧ ok a = true ∧ f = frameWord c a d) ∨
  (∃ a, ok a = true ∧ f = frameWord 0b001#3 a 0x0000#16) ∨
  (∃ (pm : BitVec 2) (m : BitVec 4), f = 0x200000#24 ||| (pm.setWidth 24 <<< 4) ||| m.setWidth 24) ∨
  f = 0x280000#24 ∨ f = 0x280001#24 ∨
  (∃ m : BitVec 4, f = 0x300000#24 ||| m.setWidth 24) ∨
  f = 0x380000#24 ∨ f = 0x380001#24

/-- `EmittableAt` for every address (R115's last sentence, R180 f). -/
def Emittable (f : Frame) : Prop := EmittableAt (fun _ => true) f

/-- The trace invariant (R115): every frame sent, or on offer when `rst` came, is one the block can
emit. -/
def TraceOk (s : State) : Prop := ∀ e ∈ s.trace ++ s.cut, Emittable e.frame

/-- What holds of a run whose requester stays inside the documented domain (R115, R7, R63): the
requests still to come are in it, so is the one in progress, and every frame sent has a defined
address and a device identifier of `w` bits. -/
def DomainOk (w : Nat) (s : State) : Prop :=
  RequesterInDomain w s ∧
  (s.busy = true → ∃ i, decodeReq s.lat = .ok i ∧ i.wf = true ∧ i.fits w = true) ∧
  ∀ e ∈ s.trace ++ s.cut, EmittableAt addrDefined e.frame ∧ devFits w e.dev = true

/-- The state invariant: the sequencer and the trace. -/
def Inv (s : State) : Prop := SequencerOk s ∧ TraceOk s

/-! ### Runs -/

/-- The request accepted at the coming edge, if any (R29). -/
def State.accepts (s : State) : Option Req :=
  if !s.now.rst && s.reqReady && s.now.reqValid then some s.now.req else none

/-- The requests accepted in the first `n` steps, in order (R49 c). -/
def acceptedIn : Nat → State → List Req
  | 0, _ => []
  | n + 1, s =>
    match step s with
    | .next t => s.accepts.toList ++ acceptedIn n t
    | .fault _ => []
    | .refused _ => []

/-- The trace that a list of requests stands for (R49 c, R56): the concatenation of their frames. -/
def traceOf (rs : List Req) : List Emission := rs.flatMap emissions

/-- The state an operation for device `dev` that emits `fs` leaves behind, begun in `s`: idle with
nothing remembered, the frames at the end of the trace in order, one edge used for the accept and
one for each frame (R120, R20). -/
def State.afterOperation (dev : Dev) (fs : List Frame) (s : State) : State :=
  { busy := false, lat := Config.idleLat s.draws, fidx := 0#2,
    edges := s.edges.drop (fs.length + 1),
    trace := s.trace ++ fs.map (fun f => { dev := dev, frame := f }),
    cut := s.cut, draws := s.draws + 1 }

/-- An operation runs (R120): presented to an idle block it is accepted at once, and at undisturbed
edges the block then emits exactly `fs`, in order, to `dev`, and is idle again.  That the accept and
each frame take one edge is the model's (log entry 2); `lat`'s value afterwards is free (log entry
4), so nothing rests on it. -/
def RunsAs (i : Instr) (dev : Dev) (fs : List Frame) : Prop :=
  ∀ s : State, s.reqReady = true → Undisturbed fs.length s.edges.tail →
    ∃ t, exec i s = .next t ∧ t.busy = !fs.isEmpty ∧
      t.offer = fs.head?.map (fun f => { dev := dev, frame := f }) ∧
      t.trace = s.trace ∧ t.cut = s.cut ∧ t.edges = s.edges.tail ∧
      Host.Core.run Sys2Proof.core fs.length t = .next (s.afterOperation dev fs)

/-- The state after the frame `e` on offer has been emitted (R28, R55, R120): the next frame's turn, or
idle after the last. -/
def State.afterEmit (e : Emission) (s : State) : State :=
  if s.fidx.toNat + 1 < (frames s.lat).length then
    { s with edges := s.edges.tail, trace := s.trace ++ [e], fidx := s.fidx + 1#2 }
  else
    { s with edges := s.edges.tail, trace := s.trace ++ [e], fidx := 0#2, busy := false,
             lat := Config.idleLat s.draws, draws := s.draws + 1 }

/-- A frame command runs (R55, R105): at an edge where the block offers its frame `f` and `frm_ready`
is 1, exactly `Emit(frm_dev, f)` happens. -/
def EmitsFrame (i : Instr) (f : Frame) : Prop :=
  ∀ (s : State) (dev : Dev), s.offer = some { dev := dev, frame := f } → s.now.frmReady = true →
    exec i s = .next (s.afterEmit { dev := dev, frame := f })

end Sys2Proof.Machine
end

