-- ==== Sys2Proof/Certificates/Slice0/Obligations.lean ====
section
/-! DEFINITION. The statements about the model, for the provers.  Each docstring names the rules of
`spec/` it formalises, and the decision (D<n>) or log entry a clause rests on where that is the spec's
own choice or the model's. -/

open Sys2Proof Sys2Proof.Machine

/-! ### Words, encodings, the wire -/

/-- R100: the fields of `encodeFrame`, its bytes, its injectivity, and the document's example. -/
def Obligations.EncodeFrameFieldByField : Prop :=
  (∀ (c a : BitVec 3) (d : Data),
    frameZero (encodeFrame c a d) = 0b00#2 ∧ frameCmd (encodeFrame c a d) = c ∧
    frameAddr (encodeFrame c a d) = a ∧
    frameBytes (encodeFrame c a d) =
      [(c.setWidth 8 <<< 3) ||| a.setWidth 8, (d >>> 8).setWidth 8, (d &&& 0x00FF#16).setWidth 8]) ∧
  (∀ (c a c' a' : BitVec 3) (d d' : Data),
    encodeFrame c a d = encodeFrame c' a' d' → c = c' ∧ a = a' ∧ d = d') ∧
  encodeFrame 0b011#3 0b001#3 0x0ABC#16 = 0x190ABC#24

/-- R79: reading a frame back is total, ignores `f[23:22]`, and is the inverse of format `F24` on the
words with `f[23:22] = 00`. -/
def Obligations.ReadFrameInvertsEncodeFrame : Prop :=
  (∀ (c a : BitVec 3) (d : Data), readFrame (encodeFrame c a d) = (c, a, d)) ∧
  (∀ f : Frame, frameZero f = 0b00#2 → encodeFrame (frameCmd f) (frameAddr f) (frameData f) = f) ∧
  (∀ (f : Frame) (z : BitVec 2),
    readFrame (z ++ f.extractLsb' 0 22) = readFrame f)

/-- R60, R62, R65, R70, R71: what was encoded decodes to itself, for every instruction and every value
of its operands; and a frame that decodes is the encoding of what it decodes to. -/
def Obligations.DecodeOfEncodeIsIdentity : Prop :=
  (∀ i : Instr, decode (encode i) = .ok i) ∧
  (∀ (f : Frame) (i : Instr), decodeFrame f = .ok i → encode i = .frame f)

/-- R60, R62, R65, R70, R71: words written out from the spec: the bytes of example E1, one frame of each
other command, a frame with `f[23:22]` = 01, and one request record for each of the ten selector codes
(decision D3).  That the reserved codes, whose requests R72 has accepted with no frame, are rejected
by the decoder by name is the model's (log entry 15). -/
def Obligations.WrittenOutWordsDecode : Prop :=
  decodeBytes [0x19#8, 0x0A#8, 0xBC#8] = .ok (.writeUpdate 0b001#3 0x0ABC#16, []) ∧
  decodeTableWord 24 0b000000111111111111111111 = some (.writeInput 0b011#3 0xFFFF#16) ∧
  decodeTableWord 24 0b000011110000000000000000 = some (.updateDac 0b111#3) ∧
  decodeTableWord 24 0b000101111000000000000000 = some (.writeInputUpdateAll 0b111#3 0x8000#16) ∧
  decodeTableWord 24 0b001000000000000000101010 = some (.power 0b10#2 0b1010#4) ∧
  decodeTableWord 24 0b001010000000000000000001 = some (.resetCmd true) ∧
  decodeTableWord 24 0b001100000000000000000101 = some (.setLdac 0b0101#4) ∧
  decodeTableWord 24 0b001110000000000000000000 = some (.reference false) ∧
  decodeTableWord 24 0b010000000000000000000000 = none ∧
  decodeReq { Req.zero with op := 0x1#4, dev := 3, setmode := 0b011#3, addr := 0b001#3,
                            value := 0x0ABC#16 } = .ok (.setch 3 0b011#3 0b001#3 0x0ABC#16) ∧
  decodeReq { Req.zero with op := 0x2#4, dev := 2, setmode := 0b011#3, valD := 4#16, valC := 3#16,
                            valB := 2#16, valA := 1#16 } =
    .ok (.setch4 2 0b011#3 1#16 2#16 3#16 4#16) ∧
  decodeReq { Req.zero with op := 0x3#4, dev := 1, addr := 0b111#3 } = .ok (.update 1 0b111#3) ∧
  decodeReq { Req.zero with op := 0x4#4, mask := 0b0011#4, pmode := 0b10#2 } =
    .ok (.pwr 0 0b10#2 0b0011#4) ∧
  decodeReq { Req.zero with op := 0x5#4, enD := true, enB := true, pmode := 0b11#2 } =
    .ok (.pwrb 0 0b11#2 false true false true) ∧
  decodeReq { Req.zero with op := 0x6#4, pmD := 0b11#2, pmC := 0b10#2, pmB := 0b01#2 } =
    .ok (.pwr4 0 0b00#2 0b01#2 0b10#2 0b11#2) ∧
  decodeReq { Req.zero with op := 0x7#4, dev := 1, flag := true } = .ok (.reset 1 true) ∧
  decodeReq { Req.zero with op := 0x8#4, mask := 0b0101#4 } = .ok (.ldac 0 0b0101#4) ∧
  decodeReq { Req.zero with op := 0x9#4, enD := true, enC := true } =
    .ok (.ldacb 0 false false true true) ∧
  decodeReq { Req.zero with op := 0xA#4, dev := 2, flag := true } = .ok (.ref 2 true) ∧
  (∀ op : BitVec 4, op = 0x0#4 ∨ 0xB#4 ≤ op →
    decodeReq { Req.zero with op := op } = .error (.reservedSelector op))

/-- R42, R43: the bit sent at position `t` is `f[23 - t]`; 24 bits, no more and no fewer (R52). -/
def Obligations.SerialBitAtPosition : Prop :=
  ∀ f : Frame, (serialBits f).length = 24 ∧
    ∀ t : Nat, t < 24 → (serialBits f)[t]? = some (f.getLsbD (23 - t))

/-- R44, R45, R48, R52, R105, R195: what a listener that samples on the falling clock edge hears of a
trace is, in order, one window per frame, with the frame's device selected from its first bit to its
last and released after it, of exactly the frame's 24 bits.  Each device's chip-select goes low, and
high, once for each of its frames and never else.  The wire events of an `Emit` and when the data line
changes are the model's reading of the transport's contract (log entry 16, DEDUCED). -/
def Obligations.WireIsOneWindowPerFrame : Prop :=
  ∀ es : List Emission,
    heard (wire es) = es.map (fun e => (e.dev, serialBits e.frame)) ∧
    (wire es).count .sclkFall = 24 * es.length ∧
    ((wire es).foldl Listener.hear .start).selected = none ∧
    ∀ d : Dev, (wire es).count (.select d) = (deviceTrace d es).length ∧
      (wire es).count (.deselect d) = (deviceTrace d es).length

/-! ### The frame commands (R106 to R113): completion -/

/-- R106 to R109: the four commands that carry an address emit `00 ∥ cmd ∥ addr ∥ data`, whose byte0
is `cmd << 3 | addr`. -/
def Obligations.AddressedFrameCommandsEmit : Prop :=
  ∀ (a : BitVec 3) (d : Data),
    EmitsFrame (.writeInput a d) (frameWord 0b000#3 a d) ∧
    EmitsFrame (.updateDac a) (frameWord 0b001#3 a 0x0000#16) ∧
    EmitsFrame (.writeInputUpdateAll a d) (frameWord 0b010#3 a d) ∧
    EmitsFrame (.writeUpdate a d) (frameWord 0b011#3 a d) ∧
    frameBytes (frameWord 0b000#3 a d) =
      [0x00#8 ||| a.setWidth 8, d.extractLsb' 8 8, d.extractLsb' 0 8] ∧
    frameBytes (frameWord 0b001#3 a 0x0000#16) = [0x08#8 ||| a.setWidth 8, 0x00#8, 0x00#8] ∧
    frameBytes (frameWord 0b010#3 a d) =
      [0x10#8 ||| a.setWidth 8, d.extractLsb' 8 8, d.extractLsb' 0 8] ∧
    frameBytes (frameWord 0b011#3 a d) =
      [0x18#8 ||| a.setWidth 8, d.extractLsb' 8 8, d.extractLsb' 0 8]

/-- R110 to R113: the four control commands emit address 000 (R147; `SET_LDAC`'s by decision D6) and
only their operand's data bits. -/
def Obligations.ControlFrameCommandsEmit : Prop :=
  ∀ (pm : BitVec 2) (m : BitVec 4),
    EmitsFrame (.power pm m) (0x200000#24 ||| (pm.setWidth 24 <<< 4) ||| m.setWidth 24) ∧
    EmitsFrame (.resetCmd true) 0x280001#24 ∧ EmitsFrame (.resetCmd false) 0x280000#24 ∧
    EmitsFrame (.setLdac m) (0x300000#24 ||| m.setWidth 24) ∧
    EmitsFrame (.reference true) 0x380001#24 ∧ EmitsFrame (.reference false) 0x380000#24

/-- R55, R49 d (decision D12; log entry 3): a frame command whose frame is not on offer, or while
`frm_ready` is 0, only lets the edge pass. -/
def Obligations.FrameCommandsWaitForTheHandshake : Prop :=
  ∀ (i : Instr) (f : Frame) (s : State), encode i = .frame f →
    (s.frmBits ≠ some f ∨ s.now.frmReady = false) →
    exec i s = .next { s with edges := s.edges.tail }

/-! ### The operations: completion and result -/

/-- R122: `SETCH` (selector code 0x1: decision D3; which set-mode is which command: `SetModeCommands`). -/
def Obligations.SetchEmitsItsFrame : Prop :=
  (∀ r : Req, r.op = 0x1#4 → decodeReq r = .ok (.setch r.dev r.setmode r.addr r.value)) ∧
  (∀ (dev : Dev) (sm a : BitVec 3) (v : Data),
    RunsAs (.setch dev sm a v) dev
      (match setModeCmd sm with
       | none => []
       | some c => [encodeFrame (Cmd.code c) a v])) ∧
  (∀ dev : Dev, RunsAs (.setch dev inputDac channelB 0x0ABC#16) dev [0x190ABC#24])

/-- R121, R69 (decisions D4, D5): the set-mode codes, and which frame command each stands for. -/
def Obligations.SetModeCommands : Prop :=
  ∀ (dev : Dev) (a : BitVec 3) (v : Data),
    RunsAs (.setch dev inputOnly a v) dev [frameWord 0b000#3 a v] ∧
    RunsAs (.setch dev inputDacUpdateAll a v) dev [frameWord 0b010#3 a v] ∧
    RunsAs (.setch dev inputDac a v) dev [frameWord 0b011#3 a v] ∧
    ∀ sm : BitVec 3, sm ∈ [0b001#3, 0b100#3, 0b101#3, 0b110#3, 0b111#3] →
      RunsAs (.setch dev sm a v) dev []

/-- R123 with the emission order A, B, C, D of decision D9 (conflict C2): `SETCH4` (selector code 0x2:
decision D3). -/
def Obligations.SetchFourEmitsFourFrames : Prop :=
  (∀ r : Req, r.op = 0x2#4 →
    decodeReq r = .ok (.setch4 r.dev r.setmode r.valA r.valB r.valC r.valD)) ∧
  (∀ (dev : Dev) (sm : BitVec 3) (vA vB vC vD : Data),
    (∀ c : Cmd, setModeCmd sm = some c →
      RunsAs (.setch4 dev sm vA vB vC vD) dev
        [encodeFrame (Cmd.code c) 0b000#3 vA, encodeFrame (Cmd.code c) 0b001#3 vB,
         encodeFrame (Cmd.code c) 0b010#3 vC, encodeFrame (Cmd.code c) 0b011#3 vD]) ∧
    (setModeCmd sm = none → RunsAs (.setch4 dev sm vA vB vC vD) dev []))

/-- §8's property of `setChannel` with four values (E6), true under either reading of conflict C2: with
the array in D-to-A order as with the positional arguments, each single-channel address occurs in
exactly one of the four frames, and that frame's data is the value of that channel. -/
def Obligations.SetchFourPairsChannelWithValue : Prop :=
  ∀ (dev : Dev) (sm : BitVec 3) (c : Cmd) (xs : Vector Data 4), setModeCmd sm = some c →
    ∃ fs : List Frame,
      RunsAs (Calls.setChannelArray dev sm xs) dev fs ∧
      RunsAs (Calls.setChannel4 dev sm xs[0] xs[1] xs[2] xs[3]) dev fs ∧
      fs.length = 4 ∧
      ∀ k : Fin 4,
        (fs.filter (fun f => frameAddr f == BitVec.ofNat 3 k.val)).map readFrame =
          [(Cmd.code c, BitVec.ofNat 3 k.val, xs[3 - k.val])]

/-- R124: `UPDATE` (selector code 0x3: decision D3). -/
def Obligations.UpdateEmitsItsFrame : Prop :=
  (∀ r : Req, r.op = 0x3#4 → decodeReq r = .ok (.update r.dev r.addr)) ∧
  (∀ (dev : Dev) (a : BitVec 3), RunsAs (.update dev a) dev [encodeFrame 0b001#3 a 0x0000#16]) ∧
  (∀ dev : Dev, RunsAs (.update dev channelAll) dev [0x0F0000#24])

/-- R140 and R102: `PWR` (selector code 0x4: decision D3). -/
def Obligations.PwrEmitsItsFrame : Prop :=
  (∀ r : Req, r.op = 0x4#4 → decodeReq r = .ok (.pwr r.dev r.pmode r.mask)) ∧
  (∀ (dev : Dev) (pm : BitVec 2) (m : BitVec 4),
    RunsAs (.pwr dev pm m) dev [encodeFrame 0b100#3 0b000#3 (powerWord pm m)] ∧
    (powerWord pm m).toNat = 16 * pm.toNat + m.toNat) ∧
  (∀ dev : Dev, RunsAs (.pwr dev pm100k 0b0011#4) dev [0x200023#24])

/-- R141 and R101: `PWRB` runs as `PWR` with the mask `D ∥ C ∥ B ∥ A`, which is 8D + 4C + 2B + A and
tells the sixteen combinations apart (selector code 0x5: decision D3). -/
def Obligations.PwrbRunsAsPwrOfTheMask : Prop :=
  (∀ r : Req, r.op = 0x5#4 →
    decodeReq r = .ok (.pwrb r.dev r.pmode r.enA r.enB r.enC r.enD)) ∧
  (∀ (dev : Dev) (pm : BitVec 2) (eA eB eC eD : Bool),
    RunsAs (.pwrb dev pm eA eB eC eD) dev
      [encodeFrame 0b100#3 0b000#3 (powerWord pm (makeChannelMask eD eC eB eA))] ∧
    RunsAs (.pwr dev pm (makeChannelMask eD eC eB eA)) dev
      [encodeFrame 0b100#3 0b000#3 (powerWord pm (makeChannelMask eD eC eB eA))] ∧
    (makeChannelMask eD eC eB eA).toNat = 8 * eD.toNat + 4 * eC.toNat + 2 * eB.toNat + eA.toNat) ∧
  (∀ d c b a d' c' b' a' : Bool, makeChannelMask d c b a = makeChannelMask d' c' b' a' →
    d = d' ∧ c = c' ∧ b = b' ∧ a = a') ∧
  (∀ dev : Dev, RunsAs (.pwrb dev pmTristate false true false true) dev [0x20003A#24])

/-- R142: `PWR4`: four `POWER` frames, the masks 0001, 0010, 0100, 1000 in that order, each with its own
channel's mode (selector code 0x6: decision D3). -/
def Obligations.PwrFourEmitsFourFrames : Prop :=
  (∀ r : Req, r.op = 0x6#4 → decodeReq r = .ok (.pwr4 r.dev r.pmA r.pmB r.pmC r.pmD)) ∧
  (∀ (dev : Dev) (pA pB pC pD : BitVec 2),
    RunsAs (.pwr4 dev pA pB pC pD) dev
      [encodeFrame 0b100#3 0b000#3 (powerWord pA 0b0001#4),
       encodeFrame 0b100#3 0b000#3 (powerWord pB 0b0010#4),
       encodeFrame 0b100#3 0b000#3 (powerWord pC 0b0100#4),
       encodeFrame 0b100#3 0b000#3 (powerWord pD 0b1000#4)]) ∧
  (∀ dev : Dev, RunsAs (.pwr4 dev pmNormal pm1k pm100k pmTristate) dev
    [0x200001#24, 0x200012#24, 0x200024#24, 0x200038#24])

/-- R143: `RESET` sends the one control bit and nothing else, and leaves the block idle
(selector code 0x7: decision D3). -/
def Obligations.ResetOperationEmitsItsFrame : Prop :=
  (∀ r : Req, r.op = 0x7#4 → decodeReq r = .ok (.reset r.dev r.flag)) ∧
  (∀ (dev : Dev) (b : Bool),
    RunsAs (.reset dev b) dev [encodeFrame 0b101#3 0b000#3 (if b then 0x0001#16 else 0x0000#16)]) ∧
  (∀ dev : Dev, RunsAs (.reset dev true) dev [0x280001#24] ∧
    RunsAs (.reset dev false) dev [0x280000#24])

/-- R144, R145 with the address 000 of decision D6: `LDAC` and `LDACB` (selector codes 0x8 and 0x9:
decision D3). -/
def Obligations.LdacFormsEmitTheMask : Prop :=
  (∀ r : Req, r.op = 0x8#4 → decodeReq r = .ok (.ldac r.dev r.mask)) ∧
  (∀ r : Req, r.op = 0x9#4 → decodeReq r = .ok (.ldacb r.dev r.enA r.enB r.enC r.enD)) ∧
  (∀ (dev : Dev) (m : BitVec 4) (eA eB eC eD : Bool),
    RunsAs (.ldac dev m) dev [0x300000#24 ||| m.setWidth 24] ∧
    RunsAs (.ldacb dev eA eB eC eD) dev
      [BitVec.ofNat 24 (0x300000 + 8 * eD.toNat + 4 * eC.toNat + 2 * eB.toNat + eA.toNat)])

/-- R146: `REF` (selector code 0xA: decision D3). -/
def Obligations.RefEmitsItsFrame : Prop :=
  (∀ r : Req, r.op = 0xA#4 → decodeReq r = .ok (.ref r.dev r.flag)) ∧
  (∀ (dev : Dev) (b : Bool),
    RunsAs (.ref dev b) dev [encodeFrame 0b111#3 0b000#3 (if b then 0x0001#16 else 0x0000#16)]) ∧
  (∀ dev : Dev, RunsAs (.ref dev false) dev [0x380000#24] ∧ RunsAs (.ref dev true) dev [0x380001#24])

/-- R171: with an invalid set-mode `SETCH` and `SETCH4` are accepted, emit nothing and leave the block
idle, and twice is observably once; no other operation has an empty list of frames. -/
def Obligations.InvalidSetModeEmitsNothing : Prop :=
  (∀ (i : Instr) (s : State), s.reqReady = true →
    (∃ dev sm, setModeCmd sm = none ∧
      ((∃ a v, i = .setch dev sm a v) ∨ ∃ vA vB vC vD, i = .setch4 dev sm vA vB vC vD)) →
    ∃ t u, exec i s = .next t ∧ exec i t = .next u ∧
      t.trace = s.trace ∧ t.cut = s.cut ∧ t.busy = false ∧ t.fidx = 0#2 ∧ t.offer = none ∧
      u.trace = s.trace ∧ u.cut = s.cut ∧ u.busy = false ∧ u.fidx = 0#2 ∧ u.offer = none) ∧
  (∀ (r : Req) (i : Instr), decodeReq r = .ok i → frames r = [] →
    (r.op = 0x1#4 ∨ r.op = 0x2#4) ∧ setModeCmd r.setmode = none)

/-- R29 (decision D2): while `req_ready` is 0 an operation is turned away with none of its effect. -/
def Obligations.OperationsWaitWhileBusy : Prop :=
  ∀ (i : Instr) (r : Req) (s : State), encode i = .request r → s.reqReady = false →
    exec i s = .next { s with edges := s.edges.tail }

/-- R72 (decision D8): a reserved `req_op` is accepted, emits no frame and completes. -/
def Obligations.ReservedSelectorEmitsNothing : Prop :=
  ∀ s : State, s.now.rst = false → s.reqReady = true → s.now.reqValid = true →
    (s.now.req.op = 0x0#4 ∨ 0xB#4 ≤ s.now.req.op) →
    step s = .next (s.afterOperation s.now.req.dev [])

/-! ### Frames: what stays unchanged -/

/-- All ten operations (R29, R28): the trace, the cut frames and the rest of the input are untouched;
the sequencer either holds, or is idle, or holds exactly this request from its first frame. -/
def Obligations.OperationsFrame : Prop :=
  ∀ (i : Instr) (r : Req) (s t : State), encode i = .request r → exec i s = .next t →
    t.trace = s.trace ∧ t.cut = s.cut ∧ t.edges = s.edges.tail ∧
    ((s.busy = true ∧ t.busy = true ∧ t.lat = s.lat ∧ t.fidx = s.fidx ∧ t.draws = s.draws) ∨
     (s.busy = false ∧ t.busy = true ∧ t.lat = r ∧ t.fidx = 0#2 ∧ t.draws = s.draws ∧
       frames r ≠ []) ∨
     (s.busy = false ∧ t.busy = false ∧ t.fidx = 0#2 ∧ t.draws = s.draws + 1 ∧ frames r = []))

/-- All eight frame commands (R55, R28, R120): the cut frames and the rest of the input are untouched;
the trace is unchanged or has this frame, on offer, at its end; `lat` changes only when the request
completes, and the block never becomes busy. -/
def Obligations.FrameCommandsFrame : Prop :=
  ∀ (i : Instr) (f : Frame) (s t : State), encode i = .frame f → exec i s = .next t →
    t.cut = s.cut ∧ t.edges = s.edges.tail ∧
    ((t.trace = s.trace ∧ t.busy = s.busy ∧ t.lat = s.lat ∧ t.fidx = s.fidx ∧ t.draws = s.draws) ∨
     (∃ e, s.offer = some e ∧ e.frame = f ∧ t.trace = s.trace ++ [e] ∧
       ((t.busy = true ∧ t.lat = s.lat ∧ t.draws = s.draws ∧
          t.fidx.toNat = s.fidx.toNat + 1) ∨
        (t.busy = false ∧ t.fidx = 0#2 ∧ t.draws = s.draws + 1 ∧ s.pending = [e]))))

/-! ### The step -/

/-- R29, R55, R120: the request presented to an idle block, or the frame on offer of a busy one, is the
instruction a step executes, when neither `rst` nor the transport's abort comes first. -/
def Obligations.StepExecutesTheDecodedInstruction : Prop :=
  ∀ (s : State) (i : Instr), s.now.rst = false → s.aborting = false →
    ((s.busy = false ∧ s.now.reqValid = true ∧ decodeReq s.now.req = .ok i) ∨
     (∃ e, s.offer = some e ∧ decodeFrame e.frame = .ok i)) →
    step s = exec i s

/-- R170, R172: no instruction stops; no step is refused; a step faults exactly when the transport
aborts in a transfer; so under `TransportReliable` every run goes on for ever. -/
def Obligations.OnlyAnAbortedTransferStops : Prop :=
  (∀ (i : Instr) (s : State), ∃ t, exec i s = .next t) ∧
  (∀ (s : State) (r : Refusal), step s ≠ .refused r) ∧
  (∀ (s : State) (x : Fault), step s = .fault x ↔
    s.now.rst = false ∧ s.now.abort = true ∧ s.frmValid = true) ∧
  (∀ (n : Nat) (s : State), TransportReliable s → ∃ t, Host.Core.run Sys2Proof.core n s = .next t)

/-- R190, R191, R31 (decisions D15, D16): an edge with `rst` leaves the block idle whatever else comes
with it, emits nothing, and abandons the frames not yet emitted; the frame on offer is the
transport's (log entry 6). -/
def Obligations.ResetEdgeAbandonsTheOperation : Prop :=
  ∀ s : State, s.now.rst = true →
    ∃ t, step s = .next t ∧ t.busy = false ∧ t.fidx = 0#2 ∧ t.reqReady = true ∧
      t.frmValid = false ∧ t.pending = [] ∧ t.trace = s.trace ∧ t.cut = s.cut ++ s.offer.toList ∧
      t.edges = s.edges.tail

/-- R55, R49 d, R53: one step adds at most one frame to the trace, and only the one on offer, at an edge
with `frm_ready`; it is then pending no more.  That no `Emit` is counted at an edge with `rst`, even
with `frm_ready`, is the model's reading of R190's priority of `rst` (log entry 6, DEDUCED). -/
def Obligations.TraceGrowsOnlyByTheOffer : Prop :=
  ∀ s t : State, step s = .next t →
    t.trace = s.trace ∨
    ∃ e, s.offer = some e ∧ s.now.frmReady = true ∧ s.now.rst = false ∧
      t.trace = s.trace ++ [e] ∧ s.pending = e :: t.pending

/-- R55 (decision D12): while `frm_ready` is 0 the block holds `frm_valid`, `frm_dev` and `frm_bits`
steady, for any number of edges. -/
def Obligations.OfferHeldWhileNotReady : Prop :=
  ∀ (n : Nat) (s : State) (e : Emission), s.offer = some e → n ≤ s.edges.length →
    (∀ x ∈ s.edges.take n, x.rst = false ∧ x.abort = false ∧ x.frmReady = false) →
    ∃ t, Host.Core.run Sys2Proof.core n s = .next t ∧ t.offer = some e ∧ t.trace = s.trace ∧
      t.pending = s.pending ∧ t.reqReady = false

/-- R51, R197 (decision D19): while an operation is in progress the `req_*` signals have no effect. -/
def Obligations.RequestWiresIgnoredWhileBusy : Prop :=
  ∀ (s : State) (e e' : Edge) (es : List Edge), s.busy = true →
    e.rst = e'.rst → e.frmReady = e'.frmReady → e.abort = e'.abort →
    step { s with edges := e :: es } = step { s with edges := e' :: es }

/-! ### The request -/

/-- R30: each operation reads its fields and no others, and the frames do not depend on the device. -/
def Obligations.UnreadFieldsHaveNoEffect : Prop :=
  (∀ r r' : Req, r.op = r'.op → r.dev = r'.dev →
    (r.op = 0x1#4 → r.setmode = r'.setmode ∧ r.addr = r'.addr ∧ r.value = r'.value) →
    (r.op = 0x2#4 → r.setmode = r'.setmode ∧ r.valA = r'.valA ∧ r.valB = r'.valB ∧
      r.valC = r'.valC ∧ r.valD = r'.valD) →
    (r.op = 0x3#4 → r.addr = r'.addr) →
    (r.op = 0x4#4 → r.mask = r'.mask ∧ r.pmode = r'.pmode) →
    (r.op = 0x5#4 → r.enA = r'.enA ∧ r.enB = r'.enB ∧ r.enC = r'.enC ∧ r.enD = r'.enD ∧
      r.pmode = r'.pmode) →
    (r.op = 0x6#4 → r.pmA = r'.pmA ∧ r.pmB = r'.pmB ∧ r.pmC = r'.pmC ∧ r.pmD = r'.pmD) →
    (r.op = 0x7#4 → r.flag = r'.flag) →
    (r.op = 0x8#4 → r.mask = r'.mask) →
    (r.op = 0x9#4 → r.enA = r'.enA ∧ r.enB = r'.enB ∧ r.enC = r'.enC ∧ r.enD = r'.enD) →
    (r.op = 0xA#4 → r.flag = r'.flag) →
    decodeReq r = decodeReq r' ∧ emissions r = emissions r') ∧
  (∀ (r : Req) (d : Dev), frames { r with dev := d } = frames r)

/-- R126: the frame count of each operation. -/
def Obligations.FrameCountOfEachOperation : Prop :=
  ∀ r : Req,
    (r.op = 0x6#4 → (frames r).length = 4) ∧
    (r.op = 0x2#4 → (frames r).length = if (setModeCmd r.setmode).isSome then 4 else 0) ∧
    (r.op = 0x1#4 → (frames r).length = if (setModeCmd r.setmode).isSome then 1 else 0) ∧
    (r.op ∈ [0x3#4, 0x4#4, 0x5#4, 0x7#4, 0x8#4, 0x9#4, 0xA#4] → (frames r).length = 1) ∧
    (r.op = 0x0#4 ∨ 0xB#4 ≤ r.op → (frames r).length = 0)

/-- R115: the frames of all requests are exactly the emittable ones, and those of the requests inside
the documented domain exactly the ones with a defined address. -/
def Obligations.EmittableFramesExactly : Prop :=
  ∀ f : Frame,
    ((∃ r, f ∈ frames r) ↔ Emittable f) ∧
    ((∃ r i, decodeReq r = .ok i ∧ i.wf = true ∧ f ∈ frames r) ↔ EmittableAt addrDefined f)

/-! ### Invariants and whole-machine rules -/

/-- R31, R190, R191 (decisions D15, D16): reset leaves the block idle with no frame offered and none
sent, and the invariants hold there; `lat`'s value is the model's (log entry 5). -/
def Obligations.ResetStateMeetsTheInvariants : Prop :=
  Inv State.reset ∧ (∀ w, DomainOk w State.reset) ∧
  State.reset.busy = false ∧ State.reset.fidx = 0#2 ∧ State.reset.reqReady = true ∧
  State.reset.frmValid = false ∧ State.reset.trace = []

/-- R28, R22, R115: every step keeps the sequencer's and the trace's invariant. -/
def Obligations.StepKeepsTheInvariant : Prop :=
  ∀ s t : State, Inv s → step s = .next t → Inv t

/-- R115, R63, R7: with a requester inside the documented domain and a port of `w` bits for the device,
every step keeps every frame sent at a defined address and every device identifier at `w` bits. -/
def Obligations.StepKeepsTheDomain : Prop :=
  ∀ (w : Nat) (s t : State), DomainOk w s → step s = .next t → DomainOk w t

/-- R49, R120: without a reset, what is sent and still pending after `n` steps is what was sent and
pending before, followed by the frames of the requests accepted meanwhile, in the order they were
accepted: nothing is reordered, merged, dropped, duplicated or invented. -/
def Obligations.TraceIsTheAcceptedRequestsInOrder : Prop :=
  ∀ (n : Nat) (s t : State), (∀ e ∈ s.edges.take n, e.rst = false) →
    Host.Core.run Sys2Proof.core n s = .next t →
    t.trace ++ t.pending = s.trace ++ s.pending ++ traceOf (acceptedIn n s)

/-- R20: what an idle block sends does not depend on anything that happened before: two idle states
with the same coming input send the same, whatever their latches, their traces and their past. -/
def Obligations.NothingRememberedBetweenOperations : Prop :=
  ∀ (n : Nat) (s s' t : State), s.busy = false → s'.busy = false → s.edges = s'.edges →
    Host.Core.run Sys2Proof.core n s = .next t →
    ∃ t' sent, Host.Core.run Sys2Proof.core n s' = .next t' ∧
      t.trace = s.trace ++ sent ∧ t'.trace = s'.trace ++ sent ∧
      t.pending = t'.pending ∧ t.reqReady = t'.reqReady

/-- R177, R46, R56: a device's part of the trace is untouched by operations for other devices. -/
def Obligations.OtherDevicesUndisturbed : Prop :=
  ∀ (n : Nat) (d : Dev) (s t : State),
    (s.busy = true → s.lat.dev ≠ d) → (∀ r ∈ acceptedIn n s, r.dev ≠ d) →
    Host.Core.run Sys2Proof.core n s = .next t →
    deviceTrace d t.trace = deviceTrace d s.trace

/-- R198 under `TransportReliable` (R172) and without a reset (R190): an operation in progress
completes, having sent exactly its pending frames, however often the transport makes it wait; and
within four frames' edges when it never does. -/
def Obligations.OperationsComplete : Prop :=
  (∀ s : State, SequencerOk s → TransportReliable s → NoReset s → s.busy = true →
    ∃ n t, n ≤ s.edges.length + 4 ∧ Host.Core.run Sys2Proof.core n s = .next t ∧
      t.reqReady = true ∧ t.trace = s.trace ++ s.pending) ∧
  (∀ s : State, SequencerOk s → s.busy = true → Undisturbed 4 s.edges →
    ∃ n t, n ≤ 4 ∧ Host.Core.run Sys2Proof.core n s = .next t ∧
      t.reqReady = true ∧ t.trace = s.trace ++ s.pending)
end

