-- ==== Sys2Proof/Laws/Operands.lean ====
section
/-! SUPPORT. What the pure functions compute: the pseudocode's shifts and ors are the concatenations
of `spec/30_encoding.md` (R114), a frame is `frameWord` of its fields, and how many frames an
operation has. -/

namespace Sys2Proof.Machine

/-! ### `encodeFrame` and the data words -/

/-- `encodeFrame` is format `F24` (R60, R100). -/
theorem encodeFrame_eq (c a : BitVec 3) (d : Data) : encodeFrame c a d = frameWord c a d := by
  apply BitVec.eq_of_getLsbD_eq
  intro i hi
  simp only [encodeFrame, frameWord, BitVec.getLsbD_append, BitVec.getLsbD_or,
    BitVec.getLsbD_shiftLeft, BitVec.getLsbD_setWidth, BitVec.getLsbD_extractLsb']
  interval_cases i <;> simp

theorem powerWord_eq (pm : BitVec 2) (m : BitVec 4) : powerWord pm m = 0#10 ++ pm ++ m := by
  revert pm m; decide

theorem boolWord_eq (b : Bool) : boolWord b = bitWord b := by revert b; decide

theorem maskWord_eq (m : BitVec 4) : maskWord m = 0#12 ++ m := by revert m; decide

/-! ### The fields of a frame -/

@[simp] theorem frameZero_frameWord (c a : BitVec 3) (d : Data) :
    frameZero (frameWord c a d) = 0#2 := by
  apply BitVec.eq_of_getLsbD_eq
  intro i hi
  simp only [frameZero, frameWord, BitVec.getLsbD_append, BitVec.getLsbD_extractLsb']
  interval_cases i <;> simp

@[simp] theorem frameCmd_frameWord (c a : BitVec 3) (d : Data) : frameCmd (frameWord c a d) = c := by
  apply BitVec.eq_of_getLsbD_eq
  intro i hi
  simp only [frameCmd, frameWord, BitVec.getLsbD_append, BitVec.getLsbD_extractLsb']
  interval_cases i <;> simp

@[simp] theorem frameAddr_frameWord (c a : BitVec 3) (d : Data) :
    frameAddr (frameWord c a d) = a := by
  apply BitVec.eq_of_getLsbD_eq
  intro i hi
  simp only [frameAddr, frameWord, BitVec.getLsbD_append, BitVec.getLsbD_extractLsb']
  interval_cases i <;> simp

@[simp] theorem frameData_frameWord (c a : BitVec 3) (d : Data) :
    frameData (frameWord c a d) = d := by
  apply BitVec.eq_of_getLsbD_eq
  intro i hi
  simp only [frameData, frameWord, BitVec.getLsbD_append, BitVec.getLsbD_extractLsb']
  interval_cases i <;> simp

/-- A frame whose reserved bits are 00 is `frameWord` of its fields (R79). -/
theorem frameWord_fields {f : Frame} (h : frameZero f = 0#2) :
    frameWord (frameCmd f) (frameAddr f) (frameData f) = f := by
  have h0 := congrArg (BitVec.getLsbD · 0) h
  have h1 := congrArg (BitVec.getLsbD · 1) h
  simp [frameZero] at h0 h1
  apply BitVec.eq_of_getLsbD_eq
  intro i hi
  simp only [frameCmd, frameAddr, frameData, frameWord, BitVec.getLsbD_append,
    BitVec.getLsbD_extractLsb']
  interval_cases i <;> simp [h0, h1]

/-! ### Frame lists -/

theorem framesSetch_length_le (sm a : BitVec 3) (v : Data) : (framesSetch sm a v).length ≤ 1 := by
  unfold framesSetch; split <;> simp

theorem framesSetch4_length_le (sm : BitVec 3) (vA vB vC vD : Data) :
    (framesSetch4 sm vA vB vC vD).length ≤ 4 := by
  unfold framesSetch4; split <;> simp

/-- A request has at most four frames (R6, R126). -/
theorem frames_length_le (r : Req) : (frames r).length ≤ 4 := by
  unfold frames
  split
  · exact (framesSetch_length_le ..).trans (by omega)
  · exact framesSetch4_length_le ..
  all_goals simp [framesUpdate, framesPwr, framesPwrb, framesPwr4, framesReset, framesLdac,
    framesLdacb, framesRef]

@[simp] theorem emissions_length (r : Req) : (emissions r).length = (frames r).length := by
  simp [emissions]

/-- Every frame of a request goes to the request's device (R41, R120). -/
theorem dev_of_mem_emissions {r : Req} {e : Emission} (h : e ∈ emissions r) : e.dev = r.dev := by
  simp only [emissions, List.mem_map] at h
  obtain ⟨f, -, rfl⟩ := h
  rfl

theorem frame_of_mem_emissions {r : Req} {e : Emission} (h : e ∈ emissions r) :
    e.frame ∈ frames r := by
  simp only [emissions, List.mem_map] at h
  obtain ⟨f, hf, rfl⟩ := h
  exact hf

/-- Two requests with the same frames and device stand for the same events. -/
theorem emissions_congr {r r' : Req} (hf : frames r = frames r') (hd : r.dev = r'.dev) :
    emissions r = emissions r' := by simp [emissions, hf, hd]

end Sys2Proof.Machine
end

