-- ==== Sys2Proof/Laws/Decode.lean ====
section
/-! SUPPORT. What the decoder says of what `exec` does: a decoded frame executes as the emission of that
frame, a decoded request as its accept; and every frame a request makes is a frame command. -/

namespace Sys2Proof.Machine.Laws

/-! ### Frames read back (R79) -/

/-- Bit `i` of a slice is bit `lo + i` of the whole. -/
theorem bit_of_slice {w n lo : Nat} {f : BitVec n} {v : BitVec w} (h : f.extractLsb' lo w = v)
    (i : Nat) (hi : i < w) : f.getLsbD (lo + i) = v.getLsbD i := by
  rw [← h, BitVec.getLsbD_extractLsb']; simp [hi]

theorem encodeFrame_fields {f : Frame} {c : BitVec 3} (hz : frameZero f = 0#2)
    (hc : frameCmd f = c) : encodeFrame c (frameAddr f) (frameData f) = f := by
  rw [encodeFrame_eq, ← hc, frameWord_fields hz]

/-- Zeros from bit `lo` up to bit 18 make the address 000. -/
theorem frameAddr_of_zeros {f : Frame} {lo w : Nat} (hlo : lo ≤ 16) (hw : lo + w = 19)
    (h : f.extractLsb' lo w = 0#w) : frameAddr f = 0b000#3 := by
  apply BitVec.eq_of_getLsbD_eq
  intro i hi
  have hb := bit_of_slice h (16 - lo + i) (by omega)
  rw [show lo + (16 - lo + i) = 16 + i by omega] at hb
  simp [frameAddr, hi, hb]

theorem encodeFrame_power {f : Frame} (hz : frameZero f = 0#2) (hc : frameCmd f = 0b100#3)
    (h0 : f.extractLsb' 6 13 = 0#13) :
    encodeFrame 0b100#3 0b000#3 (powerWord (f.extractLsb' 4 2) (f.extractLsb' 0 4)) = f := by
  have hd : frameData f = powerWord (f.extractLsb' 4 2) (f.extractLsb' 0 4) := by
    rw [powerWord_eq]
    apply BitVec.eq_of_getLsbD_eq
    intro i hi
    simp only [frameData, BitVec.getLsbD_append, BitVec.getLsbD_extractLsb']
    by_cases h6 : i < 6
    · interval_cases i <;> simp
    · have hb := bit_of_slice h0 (i - 6) (by omega)
      rw [show 6 + (i - 6) = i by omega] at hb
      simp [hb, hi, show ¬ i < 4 by omega, show ¬ i - 4 < 2 by omega]
  rw [← frameAddr_of_zeros (by omega) (by omega) h0, ← hd, encodeFrame_fields hz hc]

theorem encodeFrame_bool {f : Frame} {c : BitVec 3} (hz : frameZero f = 0#2) (hc : frameCmd f = c)
    (h0 : f.extractLsb' 1 18 = 0#18) : encodeFrame c 0b000#3 (boolWord (f.getLsbD 0)) = f := by
  have hd : frameData f = boolWord (f.getLsbD 0) := by
    rw [boolWord_eq]
    apply BitVec.eq_of_getLsbD_eq
    intro i hi
    simp only [frameData, bitWord, BitVec.getLsbD_append, BitVec.getLsbD_extractLsb']
    by_cases h1 : i < 1
    · interval_cases i; simp
    · have hb := bit_of_slice h0 (i - 1) (by omega)
      rw [show 1 + (i - 1) = i by omega] at hb
      simp [hb, h1]
  rw [← frameAddr_of_zeros (by omega) (by omega) h0, ← hd, encodeFrame_fields hz hc]

theorem encodeFrame_ldac {f : Frame} (hz : frameZero f = 0#2) (hc : frameCmd f = 0b110#3)
    (h0 : f.extractLsb' 4 15 = 0#15) :
    encodeFrame 0b110#3 0b000#3 (maskWord (f.extractLsb' 0 4)) = f := by
  have hd : frameData f = maskWord (f.extractLsb' 0 4) := by
    rw [maskWord_eq]
    apply BitVec.eq_of_getLsbD_eq
    intro i hi
    simp only [frameData, BitVec.getLsbD_append, BitVec.getLsbD_extractLsb']
    by_cases h4 : i < 4
    · interval_cases i <;> simp
    · have hb := bit_of_slice h0 (i - 4) (by omega)
      rw [show 4 + (i - 4) = i by omega] at hb
      simp [hb, h4]
  rw [← frameAddr_of_zeros (by omega) (by omega) h0, ← hd, encodeFrame_fields hz hc]

/-! ### What a decoded instruction executes as -/

/-- The frame command of a frame executes as the emission of exactly that frame (R79, R106 to R113). -/
theorem exec_of_decodeFrame {f : Frame} {i : Instr} (h : decodeFrame f = .ok i) (s : State) :
    exec i s = emitOffered f s := by
  unfold decodeFrame at h
  split at h
  · cases h
  rename_i hz
  have hz : frameZero f = 0#2 := by simpa using hz
  split at h
  · rename_i hc
    obtain rfl := Except.ok.inj h
    show emitOffered (encodeFrame 0b000#3 _ _) s = _
    rw [encodeFrame_fields hz hc]
  · rename_i hc
    split at h
    · rename_i hd
      obtain rfl := Except.ok.inj h
      show emitOffered (encodeFrame 0b001#3 _ 0#16) s = _
      rw [← hd]
      exact congrArg (emitOffered · s) (encodeFrame_fields hz hc)
    · cases h
  · rename_i hc
    obtain rfl := Except.ok.inj h
    show emitOffered (encodeFrame 0b010#3 _ _) s = _
    rw [encodeFrame_fields hz hc]
  · rename_i hc
    obtain rfl := Except.ok.inj h
    show emitOffered (encodeFrame 0b011#3 _ _) s = _
    rw [encodeFrame_fields hz hc]
  · rename_i hc
    split at h
    · rename_i hd
      obtain rfl := Except.ok.inj h
      show emitOffered (encodeFrame 0b100#3 _ _) s = _
      rw [encodeFrame_power hz hc hd]
    · cases h
  · rename_i hc
    split at h
    · rename_i hd
      obtain rfl := Except.ok.inj h
      show emitOffered (encodeFrame 0b101#3 _ _) s = _
      rw [encodeFrame_bool hz hc hd]
    · cases h
  · rename_i hc
    split at h
    · rename_i hd
      obtain rfl := Except.ok.inj h
      show emitOffered (encodeFrame 0b110#3 _ _) s = _
      rw [encodeFrame_ldac hz hc hd]
    · cases h
  · rename_i n0 n1 n2 n3 n4 n5 n6
    have hc : frameCmd f = 0b111#3 := by
      generalize frameCmd f = c at *
      revert c; decide
    split at h
    · rename_i hd
      obtain rfl := Except.ok.inj h
      show emitOffered (encodeFrame 0b111#3 _ _) s = _
      rw [encodeFrame_bool hz hc hd]
    · cases h

/-- An operation executes as the accept of its encoding (R29, R120). -/
theorem exec_of_encode_request {i : Instr} {r : Req} (h : encode i = .request r) (s : State) :
    exec i s = accept r s := by
  cases i <;> cases h <;> rfl

/-- A frame command executes as the emission of its encoding (R55, R106 to R113). -/
theorem exec_of_encode_frame {i : Instr} {f : Frame} (h : encode i = .frame f) (s : State) :
    exec i s = emitOffered f s := by
  cases i <;> simp only [encode, Encoded.frame.injEq, reduceCtorEq] at h <;> subst h <;>
    simp only [← powerWord_eq, ← boolWord_eq, ← maskWord_eq, ← encodeFrame_eq] <;> rfl

/-- The operation a request names executes as the accept of a request with the same frames for the
same device (R30, R120), which names the same operation. -/
theorem exec_of_decodeReq {r : Req} {i : Instr} (h : decodeReq r = .ok i) :
    ∃ r', frames r' = frames r ∧ r'.dev = r.dev ∧ decodeReq r' = .ok i ∧
      ∀ s, exec i s = accept r' s := by
  simp only [decodeReq] at h
  split at h
  all_goals first
    | (obtain rfl := Except.ok.inj h
       rename_i hop
       refine ⟨_, ?_, ?_, ?_, exec_of_encode_request rfl⟩
       · simp only [frames, hop]; rfl
       · rfl
       · rfl)
    | cases h

/-- A request that names no operation has no frames (R72). -/
theorem frames_of_decodeReq_error {r : Req} {e : DecodeError} (h : decodeReq r = .error e) :
    frames r = [] ∧ e = .reservedSelector r.op := by
  simp only [decodeReq] at h
  split at h
  case h_11 =>
    obtain rfl := Except.error.inj h
    refine ⟨?_, rfl⟩
    unfold frames
    split <;> first | rfl | contradiction
  all_goals cases h

/-- A reserved `req_op` has no frames (R72). -/
theorem frames_of_reserved {r : Req} (h : r.op = 0x0#4 ∨ 0xB#4 ≤ r.op) : frames r = [] := by
  unfold frames
  split <;> first
    | rfl
    | (rename_i h'; rw [h'] at h; exact absurd h (by decide))

/-! ### Every frame of a request is a frame command -/

/-- A frame that copies an address and a value decodes to its write command (R60, R62). -/
theorem decodeFrame_write {c a : BitVec 3} {d : Data} (hc : c = 0b000#3 ∨ c = 0b010#3 ∨ c = 0b011#3) :
    ∃ i, decodeFrame (encodeFrame c a d) = .ok i := by
  rw [encodeFrame_eq]
  rcases hc with rfl | rfl | rfl <;> simp [decodeFrame]

theorem decodeFrame_update (a : BitVec 3) :
    ∃ i, decodeFrame (encodeFrame 0b001#3 a 0#16) = .ok i := by
  have h : (frameWord 0b001#3 a 0#16).extractLsb' 0 16 = 0#16 := frameData_frameWord ..
  rw [encodeFrame_eq]
  simp [decodeFrame, h]

theorem decodeFrame_power : ∀ (pm : BitVec 2) (m : BitVec 4),
    decodeFrame (encodeFrame 0b100#3 0b000#3 (powerWord pm m)) = .ok (.power pm m) := by decide

theorem decodeFrame_resetCmd : ∀ b : Bool,
    decodeFrame (encodeFrame 0b101#3 0b000#3 (boolWord b)) = .ok (.resetCmd b) := by decide

theorem decodeFrame_setLdac : ∀ m : BitVec 4,
    decodeFrame (encodeFrame 0b110#3 0b000#3 (maskWord m)) = .ok (.setLdac m) := by decide

theorem decodeFrame_reference : ∀ b : Bool,
    decodeFrame (encodeFrame 0b111#3 0b000#3 (boolWord b)) = .ok (.reference b) := by decide

/-- The three set-mode commands are the write commands (R121). -/
theorem setModeCmd_some {sm : BitVec 3} {c : Cmd} (h : setModeCmd sm = some c) :
    Cmd.code c = 0b000#3 ∨ Cmd.code c = 0b010#3 ∨ Cmd.code c = 0b011#3 := by
  revert h; revert c sm; intro sm c; cases c <;> revert sm <;> decide

/-- Every frame of a request is a frame command (R73, R115). -/
theorem decodeFrame_of_mem_frames {r : Req} {f : Frame} (h : f ∈ frames r) :
    ∃ i, decodeFrame f = .ok i := by
  unfold frames at h
  split at h
  · unfold framesSetch at h
    split at h
    · cases h
    · rename_i c hc
      obtain rfl := List.mem_singleton.mp h
      exact decodeFrame_write (setModeCmd_some hc)
  · unfold framesSetch4 at h
    split at h
    · cases h
    · rename_i c hc
      simp only [List.mem_cons, List.not_mem_nil, or_false] at h
      rcases h with rfl | rfl | rfl | rfl <;> exact decodeFrame_write (setModeCmd_some hc)
  · obtain rfl := List.mem_singleton.mp h
    exact decodeFrame_update _
  · obtain rfl := List.mem_singleton.mp h
    exact ⟨_, decodeFrame_power _ _⟩
  · obtain rfl := List.mem_singleton.mp h
    exact ⟨_, decodeFrame_power _ _⟩
  · simp only [framesPwr4, List.mem_cons, List.not_mem_nil, or_false] at h
    rcases h with rfl | rfl | rfl | rfl <;> exact ⟨_, decodeFrame_power _ _⟩
  · obtain rfl := List.mem_singleton.mp h
    exact ⟨_, decodeFrame_resetCmd _⟩
  · obtain rfl := List.mem_singleton.mp h
    exact ⟨_, decodeFrame_setLdac _⟩
  · obtain rfl := List.mem_singleton.mp h
    exact ⟨_, decodeFrame_setLdac _⟩
  · obtain rfl := List.mem_singleton.mp h
    exact ⟨_, decodeFrame_reference _⟩
  · cases h

end Sys2Proof.Machine.Laws
end

