-- ==== Sys2Proof/Laws/State.lean ====
section
/-! SUPPORT. One lemma per field per state update, and the same for the handshake outputs, so that no
proof unfolds a record update. -/

namespace Sys2Proof.Machine

/-! ### `State.tick` -/

@[simp] theorem State.tick_busy (s : State) :
    s.tick.busy = s.busy := rfl

@[simp] theorem State.tick_lat (s : State) :
    s.tick.lat = s.lat := rfl

@[simp] theorem State.tick_fidx (s : State) :
    s.tick.fidx = s.fidx := rfl

@[simp] theorem State.tick_edges (s : State) :
    s.tick.edges = s.edges.tail := rfl

@[simp] theorem State.tick_trace (s : State) :
    s.tick.trace = s.trace := rfl

@[simp] theorem State.tick_cut (s : State) :
    s.tick.cut = s.cut := rfl

@[simp] theorem State.tick_draws (s : State) :
    s.tick.draws = s.draws := rfl

/-! ### `State.toIdle` -/

@[simp] theorem State.toIdle_busy (s : State) :
    s.toIdle.busy = false := rfl

@[simp] theorem State.toIdle_lat (s : State) :
    s.toIdle.lat = Config.idleLat s.draws := rfl

@[simp] theorem State.toIdle_fidx (s : State) :
    s.toIdle.fidx = 0#2 := rfl

@[simp] theorem State.toIdle_edges (s : State) :
    s.toIdle.edges = s.edges := rfl

@[simp] theorem State.toIdle_trace (s : State) :
    s.toIdle.trace = s.trace := rfl

@[simp] theorem State.toIdle_cut (s : State) :
    s.toIdle.cut = s.cut := rfl

@[simp] theorem State.toIdle_draws (s : State) :
    s.toIdle.draws = s.draws + 1 := rfl

/-! ### `State.latch` -/

@[simp] theorem State.latch_busy (r : Req) (s : State) :
    (s.latch r).busy = true := rfl

@[simp] theorem State.latch_lat (r : Req) (s : State) :
    (s.latch r).lat = r := rfl

@[simp] theorem State.latch_fidx (r : Req) (s : State) :
    (s.latch r).fidx = 0#2 := rfl

@[simp] theorem State.latch_edges (r : Req) (s : State) :
    (s.latch r).edges = s.edges := rfl

@[simp] theorem State.latch_trace (r : Req) (s : State) :
    (s.latch r).trace = s.trace := rfl

@[simp] theorem State.latch_cut (r : Req) (s : State) :
    (s.latch r).cut = s.cut := rfl

@[simp] theorem State.latch_draws (r : Req) (s : State) :
    (s.latch r).draws = s.draws := rfl

/-! ### `State.record` -/

@[simp] theorem State.record_busy (e : Emission) (s : State) :
    (s.record e).busy = s.busy := rfl

@[simp] theorem State.record_lat (e : Emission) (s : State) :
    (s.record e).lat = s.lat := rfl

@[simp] theorem State.record_fidx (e : Emission) (s : State) :
    (s.record e).fidx = s.fidx := rfl

@[simp] theorem State.record_edges (e : Emission) (s : State) :
    (s.record e).edges = s.edges := rfl

@[simp] theorem State.record_trace (e : Emission) (s : State) :
    (s.record e).trace = s.trace ++ [e] := rfl

@[simp] theorem State.record_cut (e : Emission) (s : State) :
    (s.record e).cut = s.cut := rfl

@[simp] theorem State.record_draws (e : Emission) (s : State) :
    (s.record e).draws = s.draws := rfl

/-! ### `State.recordCut` -/

@[simp] theorem State.recordCut_busy (e : Emission) (s : State) :
    (s.recordCut e).busy = s.busy := rfl

@[simp] theorem State.recordCut_lat (e : Emission) (s : State) :
    (s.recordCut e).lat = s.lat := rfl

@[simp] theorem State.recordCut_fidx (e : Emission) (s : State) :
    (s.recordCut e).fidx = s.fidx := rfl

@[simp] theorem State.recordCut_edges (e : Emission) (s : State) :
    (s.recordCut e).edges = s.edges := rfl

@[simp] theorem State.recordCut_trace (e : Emission) (s : State) :
    (s.recordCut e).trace = s.trace := rfl

@[simp] theorem State.recordCut_cut (e : Emission) (s : State) :
    (s.recordCut e).cut = s.cut ++ [e] := rfl

@[simp] theorem State.recordCut_draws (e : Emission) (s : State) :
    (s.recordCut e).draws = s.draws := rfl

/-! ### `State.placeRequest` -/

@[simp] theorem State.placeRequest_busy (r : Req) (s : State) :
    (s.placeRequest r).busy = false := rfl

@[simp] theorem State.placeRequest_lat (r : Req) (s : State) :
    (s.placeRequest r).lat = s.lat := rfl

@[simp] theorem State.placeRequest_fidx (r : Req) (s : State) :
    (s.placeRequest r).fidx = 0#2 := rfl

@[simp] theorem State.placeRequest_edges (r : Req) (s : State) :
    (s.placeRequest r).edges = { Edge.quiet with reqValid := true, req := r } :: s.edges := rfl

@[simp] theorem State.placeRequest_trace (r : Req) (s : State) :
    (s.placeRequest r).trace = s.trace := rfl

@[simp] theorem State.placeRequest_cut (r : Req) (s : State) :
    (s.placeRequest r).cut = s.cut := rfl

@[simp] theorem State.placeRequest_draws (r : Req) (s : State) :
    (s.placeRequest r).draws = s.draws := rfl

/-! ### The handshake outputs -/

@[simp] theorem State.reqReady_eq (s : State) : s.reqReady = !s.busy := rfl

@[simp] theorem State.offer_of_idle {s : State} (h : s.busy = false) : s.offer = none := by
  simp [State.offer, h]

theorem State.offer_of_busy {s : State} (h : s.busy = true) :
    s.offer = (emissions s.lat)[s.fidx.toNat]? := by simp [State.offer, h]

@[simp] theorem State.pending_of_idle {s : State} (h : s.busy = false) : s.pending = [] := by
  simp [State.pending, h]

theorem State.pending_of_busy {s : State} (h : s.busy = true) :
    s.pending = (emissions s.lat).drop s.fidx.toNat := by simp [State.pending, h]

@[simp] theorem State.tick_offer (s : State) : s.tick.offer = s.offer := rfl

@[simp] theorem State.tick_pending (s : State) : s.tick.pending = s.pending := rfl

@[simp] theorem State.toIdle_offer (s : State) : s.toIdle.offer = none := rfl

@[simp] theorem State.toIdle_pending (s : State) : s.toIdle.pending = [] := rfl

@[simp] theorem State.latch_offer (r : Req) (s : State) :
    (s.latch r).offer = (emissions r).head? := by
  rw [State.offer_of_busy rfl]; simp [List.head?_eq_getElem?]

@[simp] theorem State.latch_pending (r : Req) (s : State) : (s.latch r).pending = emissions r := by
  rw [State.pending_of_busy rfl]; simp

@[simp] theorem State.record_offer (e : Emission) (s : State) : (s.record e).offer = s.offer := rfl

@[simp] theorem State.recordCut_offer (e : Emission) (s : State) :
    (s.recordCut e).offer = s.offer := rfl

/-- A frame is on offer only while a request is in progress, and it is that request's frame `fidx`. -/
theorem State.offer_eq_some {s : State} {e : Emission} (h : s.offer = some e) :
    s.busy = true ∧ (emissions s.lat)[s.fidx.toNat]? = some e := by
  by_cases hb : s.busy = true
  · exact ⟨hb, by rw [← State.offer_of_busy hb]; exact h⟩
  · simp [State.offer, hb] at h

@[simp] theorem State.now_nil {s : State} (h : s.edges = []) : s.now = Edge.quiet := by
  simp [State.now, h]

@[simp] theorem State.now_cons {s : State} {e : Edge} {es : List Edge} (h : s.edges = e :: es) :
    s.now = e := by
  simp [State.now, h]

@[simp] theorem State.placeRequest_now (r : Req) (s : State) :
    (s.placeRequest r).now = { Edge.quiet with reqValid := true, req := r } := rfl

end Sys2Proof.Machine
end

