-- ==== Sys2Proof/Laws/Ops.lean ====
section
/-! SUPPORT. What each shared operation can do, said once, and what a step can do (`step_cases`): the
lemmas that proofs about runs cite instead of unfolding `step`. -/

namespace Sys2Proof.Machine.Laws

/-! ### `accept` -/

/-- Not ready: the request is turned away with no effect (R29). -/
theorem accept_of_busy {r : Req} {s : State} (h : s.busy = true) : accept r s = .next s.tick := by
  simp [accept, h]

/-- Ready, and no frame to emit: accepted and completed (R171, R72). -/
theorem accept_of_nil {r : Req} {s : State} (h : s.busy = false) (hf : frames r = []) :
    accept r s = .next s.tick.toIdle := by
  simp [accept, h, hf]

/-- Ready, and frames to emit: latched (R28). -/
theorem accept_of_ne_nil {r : Req} {s : State} (h : s.busy = false) (hf : frames r ≠ []) :
    accept r s = .next (s.tick.latch r) := by
  cases hfr : frames r with
  | nil => exact absurd hfr hf
  | cons f fs => simp [accept, h, hfr]

/-- Everything `accept` can do. -/
theorem accept_cases {r : Req} {s t : State} (h : accept r s = .next t) :
    (s.busy = true ∧ t = s.tick) ∨
    (s.busy = false ∧ frames r = [] ∧ t = s.tick.toIdle) ∨
    (s.busy = false ∧ frames r ≠ [] ∧ t = s.tick.latch r) := by
  cases hb : s.busy with
  | true =>
    rw [accept_of_busy hb] at h
    exact .inl ⟨rfl, (Host.Outcome.next.inj h).symm⟩
  | false =>
    by_cases hf : frames r = []
    · rw [accept_of_nil hb hf] at h
      exact .inr (.inl ⟨rfl, hf, (Host.Outcome.next.inj h).symm⟩)
    · rw [accept_of_ne_nil hb hf] at h
      exact .inr (.inr ⟨rfl, hf, (Host.Outcome.next.inj h).symm⟩)

/-! ### `emitOffered` -/

/-- The frame on offer is emitted when the transport has finished with it (R55). -/
theorem emitOffered_of_ready {e : Emission} {s : State} (h : s.offer = some e)
    (hr : s.now.frmReady = true) : emitOffered e.frame s = .next (s.emitted e) := by
  simp [emitOffered, h, hr]

/-- A frame on offer is held while `frm_ready` is 0 (R55). -/
theorem emitOffered_of_not_ready {f : Frame} {s : State} (hr : s.now.frmReady = false) :
    emitOffered f s = .next s.tick := by
  unfold emitOffered; split <;> simp [hr]

/-- Everything `emitOffered` can do. -/
theorem emitOffered_cases {f : Frame} {s t : State} (h : emitOffered f s = .next t) :
    t = s.tick ∨
    ∃ e, s.offer = some e ∧ e.frame = f ∧ s.now.frmReady = true ∧ t = s.emitted e := by
  unfold emitOffered at h
  split at h
  · rename_i e he
    split at h
    · rename_i hc
      simp only [Bool.and_eq_true, beq_iff_eq] at hc
      exact .inr ⟨e, he, hc.2, hc.1, (Host.Outcome.next.inj h).symm⟩
    · exact .inl (Host.Outcome.next.inj h).symm
  · exact .inl (Host.Outcome.next.inj h).symm

/-! ### `advance` and `emitted` -/

/-- Not the last frame: `fidx` moves on by 1 (R22, R28). -/
theorem emitted_of_more {e : Emission} {s : State}
    (h : s.fidx.toNat + 1 < (frames s.lat).length) :
    s.emitted e = { s.tick.record e with fidx := s.fidx + 1#2 } := by
  simp [State.emitted, State.advance, h]

/-- The last frame: idle (R28, R120). -/
theorem emitted_of_last {e : Emission} {s : State}
    (h : ¬ s.fidx.toNat + 1 < (frames s.lat).length) :
    s.emitted e = (s.tick.record e).toIdle := by
  simp [State.emitted, State.advance, h]

@[simp] theorem emitted_trace (e : Emission) (s : State) : (s.emitted e).trace = s.trace ++ [e] := by
  unfold State.emitted State.advance; split <;> rfl

@[simp] theorem emitted_cut (e : Emission) (s : State) : (s.emitted e).cut = s.cut := by
  unfold State.emitted State.advance; split <;> rfl

@[simp] theorem emitted_edges (e : Emission) (s : State) : (s.emitted e).edges = s.edges.tail := by
  unfold State.emitted State.advance; split <;> rfl

/-- `fidx` does not wrap while a frame is left (R22). -/
theorem fidx_succ_toNat {s : State} (h : s.fidx.toNat + 1 < (frames s.lat).length) :
    (s.fidx + 1#2).toNat = s.fidx.toNat + 1 := by
  have := frames_length_le s.lat
  rw [BitVec.toNat_add]
  simp
  omega

/-- Emission takes the first pending frame off (R28, R49). -/
theorem emitted_pending {e : Emission} {s : State} (h : s.offer = some e) :
    s.pending = e :: (s.emitted e).pending := by
  obtain ⟨hb, he⟩ := State.offer_eq_some h
  have hlt : s.fidx.toNat < (emissions s.lat).length := (List.getElem?_eq_some_iff.mp he).1
  have hd : s.pending = e :: (emissions s.lat).drop (s.fidx.toNat + 1) := by
    rw [State.pending_of_busy hb, List.drop_eq_getElem_cons hlt,
      (List.getElem?_eq_some_iff.mp he).2]
  rw [hd]
  congr 1
  by_cases hm : s.fidx.toNat + 1 < (frames s.lat).length
  · rw [emitted_of_more hm, State.pending_of_busy (by exact hb)]
    show _ = List.drop (s.fidx + 1#2).toNat (emissions s.lat)
    rw [fidx_succ_toNat hm]
  · rw [emitted_of_last hm, State.toIdle_pending]
    exact List.drop_eq_nil_of_le (by rw [emissions_length]; omega)

/-- The emission of the frame on offer, as `Safety` writes it. -/
theorem emitted_eq_afterEmit (e : Emission) (s : State) : s.emitted e = s.afterEmit e := by
  unfold State.emitted State.advance State.afterEmit State.toIdle State.record State.tick
  rfl

/-! ### `step` -/

/-- A frame on offer is a frame command (R73). -/
theorem decodeFrame_of_offer {s : State} {e : Emission} (h : s.offer = some e) :
    ∃ i, decodeFrame e.frame = .ok i :=
  decodeFrame_of_mem_frames (frame_of_mem_emissions (List.mem_of_getElem? (State.offer_eq_some h).2))

/-- While a frame is on offer, a step is the emission of it (R55, R120). -/
theorem step_of_offer {s : State} {e : Emission} (hr : s.now.rst = false) (ha : s.now.abort = false)
    (h : s.offer = some e) : step s = emitOffered e.frame s := by
  obtain ⟨i, hi⟩ := decodeFrame_of_offer h
  have hb := (State.offer_eq_some h).1
  simp [step, hr, State.aborting, ha, State.fetch, hb, h, hi, exec_of_decodeFrame hi]

/-- While the block is idle and a request is presented, a step is the accept of a request with the
same frames for the same device (R29, R120, R72). -/
theorem step_of_request {s : State} (hr : s.now.rst = false) (hb : s.busy = false)
    (hv : s.now.reqValid = true) :
    ∃ r, frames r = frames s.now.req ∧ r.dev = s.now.req.dev ∧
      decodeReq r = decodeReq s.now.req ∧ step s = accept r s := by
  have hbase : step s = match decodeReq s.now.req with
      | .ok i => exec i s
      | .error e => rejected e s := by
    simp only [step, hr, State.aborting, State.frmValid, State.offer, hb, State.fetch, hv]
    cases decodeReq s.now.req <;> simp
  cases hd : decodeReq s.now.req with
  | ok i =>
    obtain ⟨r, hf, hdev, hdec, he⟩ := exec_of_decodeReq hd
    exact ⟨r, hf, hdev, hdec, by rw [hbase, hd]; exact he s⟩
  | error e =>
    obtain ⟨-, rfl⟩ := frames_of_decodeReq_error hd
    exact ⟨_, rfl, rfl, hd, by rw [hbase, hd]; rfl⟩

/-- With nothing to execute, a step only passes (R29). -/
theorem step_of_nothing {s : State} (hr : s.now.rst = false) (ho : s.offer = none)
    (hv : s.busy = true ∨ s.now.reqValid = false) : step s = .next s.pass := by
  have hf : s.fetch = none := by
    unfold State.fetch
    cases hb : s.busy with
    | true => simp [ho]
    | false =>
      rcases hv with h | h
      · rw [hb] at h; cases h
      · simp [h]
  simp [step, hr, State.aborting, State.frmValid, ho, hf]

/-- With `rst` a step is the reset edge, whatever else is on the port (R190). -/
theorem step_of_rst {s : State} (hr : s.now.rst = true) : step s = .next s.rstEdge := by
  simp [step, hr]

/-- An aborting transport ends the run (R172). -/
theorem step_of_abort {s : State} (hr : s.now.rst = false) (ha : s.aborting = true) :
    step s = .fault .transportAborted := by
  simp [step, hr, ha]

/-- Everything a step can do. -/
theorem step_cases (s : State) :
    (s.now.rst = true ∧ step s = .next s.rstEdge) ∨
    (s.now.rst = false ∧ (
      (s.aborting = true ∧ step s = .fault .transportAborted) ∨
      (∃ e, s.offer = some e ∧ s.now.abort = false ∧ s.now.frmReady = true ∧
        step s = .next (s.emitted e)) ∨
      (∃ e, s.offer = some e ∧ s.now.abort = false ∧ s.now.frmReady = false ∧
        step s = .next s.tick) ∨
      (s.offer = none ∧ (s.busy = true ∨ s.now.reqValid = false) ∧ step s = .next s.pass) ∨
      (s.busy = false ∧ s.now.reqValid = true ∧ frames s.now.req = [] ∧
        step s = .next s.tick.toIdle) ∨
      (s.busy = false ∧ s.now.reqValid = true ∧ ∃ r, frames r = frames s.now.req ∧
        r.dev = s.now.req.dev ∧ decodeReq r = decodeReq s.now.req ∧ frames r ≠ [] ∧ step s = .next (s.tick.latch r)))) := by
  cases hr : s.now.rst with
  | true => exact .inl ⟨rfl, step_of_rst hr⟩
  | false =>
    refine .inr ⟨rfl, ?_⟩
    cases ho : s.offer with
    | some e =>
      cases ha : s.now.abort with
      | true =>
        have hab : s.aborting = true := by simp [State.aborting, ha, State.frmValid, ho]
        exact .inl ⟨hab, step_of_abort hr hab⟩
      | false =>
        refine .inr ?_
        cases hf : s.now.frmReady with
        | true => exact .inl ⟨e, rfl, rfl, rfl, by rw [step_of_offer hr ha ho, emitOffered_of_ready ho hf]⟩
        | false =>
          exact .inr (.inl ⟨e, rfl, rfl, rfl, by rw [step_of_offer hr ha ho, emitOffered_of_not_ready hf]⟩)
    | none =>
      refine .inr (.inr (.inr ?_))
      by_cases hv : s.busy = true ∨ s.now.reqValid = false
      · exact .inl ⟨rfl, hv, step_of_nothing hr ho hv⟩
      · simp only [not_or, Bool.not_eq_true, Bool.not_eq_false] at hv
        obtain ⟨r, hf, hdev, hdec, he⟩ := step_of_request hr hv.1 hv.2
        by_cases hn : frames r = []
        · exact .inr (.inl ⟨hv.1, hv.2, hf ▸ hn, by rw [he, accept_of_nil hv.1 hn]⟩)
        · exact .inr (.inr ⟨hv.1, hv.2, r, hf, hdev, hdec, hn, by rw [he, accept_of_ne_nil hv.1 hn]⟩)

/-- Every next state a step can give. -/
theorem step_next {s t : State} (h : step s = .next t) :
    (s.now.rst = true ∧ t = s.rstEdge) ∨
    (s.now.rst = false ∧ (
      (∃ e, s.offer = some e ∧ s.now.abort = false ∧ s.now.frmReady = true ∧ t = s.emitted e) ∨
      (∃ e, s.offer = some e ∧ s.now.abort = false ∧ s.now.frmReady = false ∧ t = s.tick) ∨
      (s.offer = none ∧ (s.busy = true ∨ s.now.reqValid = false) ∧ t = s.pass) ∨
      (s.busy = false ∧ s.now.reqValid = true ∧ frames s.now.req = [] ∧ t = s.tick.toIdle) ∨
      (s.busy = false ∧ s.now.reqValid = true ∧ ∃ r, frames r = frames s.now.req ∧
        r.dev = s.now.req.dev ∧ decodeReq r = decodeReq s.now.req ∧ frames r ≠ [] ∧ t = s.tick.latch r))) := by
  have inj : ∀ {u}, step s = .next u → t = u := fun hu => Host.Outcome.next.inj (h.symm.trans hu)
  rcases step_cases s with ⟨hr, hx⟩ | ⟨hr, ⟨-, hx⟩ | ⟨e, ho, ha, hf, hx⟩ | ⟨e, ho, ha, hf, hx⟩ |
    ⟨ho, hv, hx⟩ | ⟨hb, hv, hf, hx⟩ | ⟨hb, hv, r, hf, hd, hdec, hn, hx⟩⟩
  · exact .inl ⟨hr, inj hx⟩
  · rw [h] at hx; cases hx
  · exact .inr ⟨hr, .inl ⟨e, ho, ha, hf, inj hx⟩⟩
  · exact .inr ⟨hr, .inr (.inl ⟨e, ho, ha, hf, inj hx⟩)⟩
  · exact .inr ⟨hr, .inr (.inr (.inl ⟨ho, hv, inj hx⟩))⟩
  · exact .inr ⟨hr, .inr (.inr (.inr (.inl ⟨hb, hv, hf, inj hx⟩)))⟩
  · exact .inr ⟨hr, .inr (.inr (.inr (.inr ⟨hb, hv, r, hf, hd, hdec, hn, inj hx⟩)))⟩

@[simp] theorem rstEdge_edges (s : State) : s.rstEdge.edges = s.edges.tail := by
  unfold State.rstEdge; split <;> rfl

@[simp] theorem rstEdge_trace (s : State) : s.rstEdge.trace = s.trace := by
  unfold State.rstEdge; split <;> rfl

@[simp] theorem rstEdge_cut (s : State) : s.rstEdge.cut = s.cut ++ s.offer.toList := by
  unfold State.rstEdge
  split
  · rename_i e he; simp [he]
  · rename_i he; simp [he]

@[simp] theorem pass_edges (s : State) : s.pass.edges = s.edges.tail := by
  unfold State.pass; split <;> rfl

@[simp] theorem pass_trace (s : State) : s.pass.trace = s.trace := by
  unfold State.pass; split <;> rfl

@[simp] theorem pass_cut (s : State) : s.pass.cut = s.cut := by
  unfold State.pass; split <;> rfl

/-- A step uses up one edge of the input. -/
theorem step_next_edges {s t : State} (h : step s = .next t) : t.edges = s.edges.tail := by
  rcases step_next h with ⟨-, rfl⟩ | ⟨-, ⟨e, -, -, -, rfl⟩ | ⟨e, -, -, -, rfl⟩ | ⟨-, -, rfl⟩ |
    ⟨-, -, -, rfl⟩ | ⟨-, -, r, -, -, -, -, rfl⟩⟩ <;> simp

end Sys2Proof.Machine.Laws
end

