-- ==== Sys2Proof/Laws/PerInstr.lean ====
section
/-! SUPPORT. The family `TableRow`: every instruction's encoding has the bits that its row of
`spec/opcode_table.json` fixes (`match` and `mask`), with any operands. -/

namespace Sys2Proof.Laws.TableRow

open Sys2Proof.Machine

/-- The encoding of `i` matches the opcode-table row of `i`. -/
def Statement (i : Instr) : Prop := (encode i).matchesRow (tableRow i) = true

/-- The top five bits of a frame are 00 and the command. -/
theorem frame_and_top (c a : BitVec 3) (d : Data) :
    frameWord c a d &&& 0xF80000#24 = frameWord c 0b000#3 0x0000#16 := by
  apply BitVec.eq_of_getLsbD_eq
  intro i hi
  simp only [frameWord, BitVec.getLsbD_and, BitVec.getLsbD_append]
  interval_cases i <;> simp

theorem writeInput (addr : BitVec 3) (data : Data) : Statement (.writeInput addr data) := by
  simp only [Statement, encode, tableRow, Encoded.matchesRow, beq_iff_eq]
  exact (frame_and_top ..).trans (by decide)

theorem updateDac (addr : BitVec 3) : Statement (.updateDac addr) := by
  revert addr; unfold Statement; decide

theorem writeInputUpdateAll (addr : BitVec 3) (data : Data) :
    Statement (.writeInputUpdateAll addr data) := by
  simp only [Statement, encode, tableRow, Encoded.matchesRow, beq_iff_eq]
  exact (frame_and_top ..).trans (by decide)

theorem writeUpdate (addr : BitVec 3) (data : Data) : Statement (.writeUpdate addr data) := by
  simp only [Statement, encode, tableRow, Encoded.matchesRow, beq_iff_eq]
  exact (frame_and_top ..).trans (by decide)

theorem power (pmode : BitVec 2) (mask : BitVec 4) : Statement (.power pmode mask) := by
  revert pmode mask; unfold Statement; decide

theorem resetCmd (full : Bool) : Statement (.resetCmd full) := by
  revert full; unfold Statement; decide

theorem setLdac (mask : BitVec 4) : Statement (.setLdac mask) := by
  revert mask; unfold Statement; decide

theorem reference (yes : Bool) : Statement (.reference yes) := by
  revert yes; unfold Statement; decide

theorem setch (dev : Dev) (setmode addr : BitVec 3) (value : Data) :
    Statement (.setch dev setmode addr value) := by
  simp [Statement, encode, tableRow, Encoded.matchesRow, Req.naming]

theorem setch4 (dev : Dev) (setmode : BitVec 3) (valA valB valC valD : Data) :
    Statement (.setch4 dev setmode valA valB valC valD) := by
  simp [Statement, encode, tableRow, Encoded.matchesRow, Req.naming]

theorem update (dev : Dev) (addr : BitVec 3) : Statement (.update dev addr) := by
  simp [Statement, encode, tableRow, Encoded.matchesRow, Req.naming]

theorem pwr (dev : Dev) (pmode : BitVec 2) (mask : BitVec 4) : Statement (.pwr dev pmode mask) := by
  simp [Statement, encode, tableRow, Encoded.matchesRow, Req.naming]

theorem pwrb (dev : Dev) (pmode : BitVec 2) (enA enB enC enD : Bool) :
    Statement (.pwrb dev pmode enA enB enC enD) := by
  simp [Statement, encode, tableRow, Encoded.matchesRow, Req.naming]

theorem pwr4 (dev : Dev) (pmA pmB pmC pmD : BitVec 2) : Statement (.pwr4 dev pmA pmB pmC pmD) := by
  simp [Statement, encode, tableRow, Encoded.matchesRow, Req.naming]

theorem reset (dev : Dev) (full : Bool) : Statement (.reset dev full) := by
  simp [Statement, encode, tableRow, Encoded.matchesRow, Req.naming]

theorem ldac (dev : Dev) (mask : BitVec 4) : Statement (.ldac dev mask) := by
  simp [Statement, encode, tableRow, Encoded.matchesRow, Req.naming]

theorem ldacb (dev : Dev) (enA enB enC enD : Bool) : Statement (.ldacb dev enA enB enC enD) := by
  simp [Statement, encode, tableRow, Encoded.matchesRow, Req.naming]

theorem ref (dev : Dev) (yes : Bool) : Statement (.ref dev yes) := by
  simp [Statement, encode, tableRow, Encoded.matchesRow, Req.naming]

end Sys2Proof.Laws.TableRow
end

