-- ==== Sys2Proof/Laws/Runs.lean ====
section
/-! SUPPORT. Runs of several steps: one lemma per outcome of the first step, and the induction that takes
an operation from its first frame on offer to its completion, once. -/

namespace Sys2Proof.Machine.Laws

theorem run_of_next {s t : State} (h : step s = .next t) (n : Nat) :
    Host.Core.run Sys2Proof.core (n + 1) s = Host.Core.run Sys2Proof.core n t := by
  have h' : Sys2Proof.core.step s = .next t := h
  simp only [Host.Core.run, h']

theorem run_of_fault {s : State} {x : Fault} (h : step s = .fault x) (n : Nat) :
    Host.Core.run Sys2Proof.core (n + 1) s = .fault x := by
  have h' : Sys2Proof.core.step s = .fault x := h
  simp only [Host.Core.run, h']

theorem acceptedIn_of_next {s t : State} (h : step s = .next t) (n : Nat) :
    acceptedIn (n + 1) s = s.accepts.toList ++ acceptedIn n t := by
  simp only [acceptedIn, h]

/-- An edge of an undisturbed stretch (beyond the listed edges every edge is quiet). -/
theorem now_of_undisturbed {n : Nat} {s : State} (h : Undisturbed (n + 1) s.edges) :
    s.now.rst = false ∧ s.now.abort = false ∧ s.now.frmReady = true := by
  cases he : s.edges with
  | nil => rw [State.now_nil he]; exact ⟨rfl, rfl, rfl⟩
  | cons e es => rw [State.now_cons he]; exact h e (by simp [he])

theorem undisturbed_tail {n : Nat} {es : List Edge} (h : Undisturbed (n + 1) es) :
    Undisturbed n es.tail := by
  intro x hx
  cases es with
  | nil => simp at hx
  | cons y ys => exact h x (by simp at hx ⊢; exact .inr hx)

/-- A busy block has its first pending frame on offer. -/
theorem offer_of_pending {s : State} {e : Emission} {es : List Emission} (h : s.pending = e :: es) :
    s.busy = true ∧ s.offer = some e := by
  cases hb : s.busy with
  | false => simp [State.pending, hb] at h
  | true =>
    refine ⟨rfl, ?_⟩
    rw [State.pending_of_busy hb] at h
    rw [State.offer_of_busy hb, ← List.head?_drop, h]
    rfl

/-- At undisturbed edges a block with frames pending emits them all, in order, and is idle (R120). -/
theorem run_pending (p : Emission) (ps : List Emission) : ∀ s : State, s.pending = p :: ps →
    Undisturbed (ps.length + 1) s.edges →
    Host.Core.run Sys2Proof.core (ps.length + 1) s = .next
      { busy := false, lat := Config.idleLat s.draws, fidx := 0#2,
        edges := s.edges.drop (ps.length + 1), trace := s.trace ++ p :: ps, cut := s.cut,
        draws := s.draws + 1 } := by
  induction ps generalizing p with
  | nil =>
    intro s hp hu
    obtain ⟨hb, ho⟩ := offer_of_pending hp
    obtain ⟨hr, ha, hf⟩ := now_of_undisturbed hu
    have hlast : ¬ s.fidx.toNat + 1 < (frames s.lat).length := by
      rw [State.pending_of_busy hb] at hp
      have := congrArg List.length hp
      simp at this
      omega
    have hstep : step s = .next (s.tick.record p).toIdle := by
      rw [step_of_offer hr ha ho, emitOffered_of_ready ho hf, emitted_of_last hlast]
    rw [List.length_nil, run_of_next hstep]
    simp [Host.Core.run, State.toIdle, State.record, State.tick]
  | cons q qs ih =>
    intro s hp hu
    obtain ⟨hb, ho⟩ := offer_of_pending hp
    obtain ⟨hr, ha, hf⟩ := now_of_undisturbed hu
    have hstep : step s = .next (s.emitted p) := by
      rw [step_of_offer hr ha ho, emitOffered_of_ready ho hf]
    have hmore : s.fidx.toNat + 1 < (frames s.lat).length := by
      rw [State.pending_of_busy hb] at hp
      have := congrArg List.length hp
      simp at this
      omega
    have hrest : (s.emitted p).pending = q :: qs := by
      have := emitted_pending ho
      rw [hp] at this
      exact (List.cons.inj this).2.symm
    have hdraws : (s.emitted p).draws = s.draws := by rw [emitted_of_more hmore]; rfl
    rw [List.length_cons, run_of_next hstep, ih q (s.emitted p) hrest]
    · simp [hdraws]
    · rw [emitted_edges]; exact undisturbed_tail hu

/-- An operation presented to an idle block runs as its frames (R120). -/
theorem runsAs_of_encode {i : Instr} {r : Req} {fs : List Frame} (h : encode i = .request r)
    (hf : frames r = fs) : RunsAs i r.dev fs := by
  intro s hr hu
  have hb : s.busy = false := by simpa using hr
  rw [exec_of_encode_request h]
  cases fs with
  | nil =>
    refine ⟨_, accept_of_nil hb hf, rfl, rfl, rfl, rfl, rfl, ?_⟩
    simp [Host.Core.run, State.afterOperation, State.toIdle, State.tick]
  | cons f fs =>
    have he : emissions r = { dev := r.dev, frame := f } ::
        fs.map (fun f => { dev := r.dev, frame := f }) := by simp [emissions, hf]
    refine ⟨_, accept_of_ne_nil hb (by simp [hf]), rfl, ?_, rfl, rfl, rfl, ?_⟩
    · rw [State.latch_offer, he]; rfl
    · have := run_pending _ _ (s.tick.latch r) (by rw [State.latch_pending, he]) (by simpa using hu)
      rw [List.length_map] at this
      rw [List.length_cons, this]
      simp [State.afterOperation]

end Sys2Proof.Machine.Laws
end

