-- ==== Sys2Proof/Laws/Transport.lean ====
section
/-! SUPPORT. The bytes of an encoded frame, and what a listener makes of a run of bits. -/

namespace Sys2Proof.Machine

/-- The bytes of a frame are byte0 of R100 and the two bytes of the data word (R42). -/
theorem frameBytes_encodeFrame (c a : BitVec 3) (d : Data) :
    frameBytes (encodeFrame c a d) =
      [(c.setWidth 8 <<< 3) ||| a.setWidth 8, d.extractLsb' 8 8, d.extractLsb' 0 8] := by
  have e0 : (encodeFrame c a d).extractLsb' 16 8 = (c.setWidth 8 <<< 3) ||| a.setWidth 8 := by
    apply BitVec.eq_of_getLsbD_eq
    intro i hi
    simp only [encodeFrame, BitVec.getLsbD_append, BitVec.getLsbD_extractLsb']
    interval_cases i <;> simp
  have e1 : (encodeFrame c a d).extractLsb' 8 8 = d.extractLsb' 8 8 := by
    apply BitVec.eq_of_getLsbD_eq
    intro i hi
    simp only [encodeFrame, BitVec.getLsbD_append, BitVec.getLsbD_extractLsb']
    interval_cases i <;> simp
  have e2 : (encodeFrame c a d).extractLsb' 0 8 = d.extractLsb' 0 8 := by
    apply BitVec.eq_of_getLsbD_eq
    intro i hi
    simp only [encodeFrame, BitVec.getLsbD_append, BitVec.getLsbD_extractLsb']
    interval_cases i <;> simp
  rw [frameBytes, e0, e1, e2]

theorem wire_cons (e : Emission) (es : List Emission) : wire (e :: es) = wireOf e ++ wire es := rfl

/-- Bits clocked out while a device is selected are shifted in, in order (R48). -/
theorem hear_bits (bs : List Bool) (l : Listener) :
    (bs.flatMap wireBit).foldl Listener.hear l =
      { l with mosi := bs.getLast?.getD l.mosi,
               shift := if l.selected.isSome then l.shift ++ bs else l.shift } := by
  induction bs generalizing l with
  | nil => simp
  | cons b bs ih =>
    simp only [List.flatMap_cons, List.foldl_append, ih]
    cases h : l.selected <;> cases bs <;> simp [wireBit, Listener.hear, h, List.getLast?_cons]

/-- One `Emit` adds one window, of the device selected, and leaves no device selected (R44, R105). -/
theorem hear_wireOf (e : Emission) (l : Listener) :
    (wireOf e).foldl Listener.hear l =
      { selected := none, mosi := (serialBits e.frame).getLast?.getD l.mosi, shift := [],
        windows := l.windows ++ [(e.dev, serialBits e.frame)] } := by
  simp [wireOf, hear_bits, Listener.hear]

end Sys2Proof.Machine
end

