-- ==== Sys2Proof/Tests/Slice0.lean ====
section
/-! SUPPORT. The model's own tests: the check of `WellFormed`, words written out from the spec's
encodings, the spec's test vectors (`spec/95_test_vectors.md`; every expected value is the vector's or
is computed by hand from the rule named), and a witness for the hypotheses of each statement. -/

namespace Sys2Proof.Tests

open Sys2Proof.Machine

/-- The state of an outcome, if it is a next state. -/
def nextOf (o : Host.Outcome State Fault Refusal) : Option State :=
  match o with
  | .next s => some s
  | .fault _ => none
  | .refused _ => none

/-- The frames an operation's request makes. -/
def framesOf (i : Instr) : List Frame :=
  match encode i with
  | .request r => frames r
  | .frame _ => []

/-- The trace after one step that finds an opcode-table word. -/
def traceAfter (nbits w : Nat) : Option (List Emission) :=
  (nextOf (step (State.reset.withFetchWord nbits w))).map State.trace

/-- The frame on offer after one instruction from reset. -/
def offerAfter (i : Instr) : Option (Option Emission) :=
  (nextOf (exec i State.reset)).map State.offer

/-- A block that has accepted `i` at reset and has `es` before it. -/
def started (i : Instr) (es : List Edge) : State :=
  match encode i with
  | .request r => { State.reset.latch r with edges := es }
  | .frame _ => State.reset

/-- The frame placed at reset is on offer, for device 0, at an edge with `frm_ready`. -/
def offeredReady (f : Frame) : Bool :=
  (State.reset.placeFrame f).offer == some { dev := 0, frame := f } &&
    (State.reset.placeFrame f).now.frmReady

/-! ### Well-formedness: one ill-formed term for each check -/

theorem test_wf_setch_address : (Instr.setch 0 0b011#3 0b100#3 0xBEEF#16).wf = false := by decide

theorem test_wf_update_address : (Instr.update 0 0b101#3).wf = false := by decide

theorem test_wf_frame_addresses :
    (Instr.writeInput 0b110#3 0#16).wf = false ∧ (Instr.updateDac 0b100#3).wf = false ∧
    (Instr.writeInputUpdateAll 0b101#3 0#16).wf = false ∧
    (Instr.writeUpdate 0b110#3 0#16).wf = false := by decide

theorem test_wf_device : (Instr.ref 4 true).fits 2 = false := by decide

theorem test_wf_accepts :
    (Instr.setch 3 0b111#3 0b111#3 0#16).wf = true ∧ (Instr.ref 3 true).fits 2 = true := by decide

/-! ### Decoding: words written out bit by bit from R60, R62, R65, R71 -/

theorem test_decode_writeInput :
    decodeFrame 0b00_000_011_1111111111111111#24 = .ok (.writeInput 0b011#3 0xFFFF#16) := by decide

theorem test_decode_updateDac :
    decodeFrame 0b00_001_111_0000000000000000#24 = .ok (.updateDac 0b111#3) := by decide

theorem test_decode_writeInputUpdateAll :
    decodeFrame 0b00_010_111_1000000000000000#24 =
      .ok (.writeInputUpdateAll 0b111#3 0x8000#16) := by decide

theorem test_decode_writeUpdate :
    decodeFrame 0b00_011_001_0000101010111100#24 = .ok (.writeUpdate 0b001#3 0x0ABC#16) := by decide

theorem test_decode_power :
    decodeFrame 0b00_100_000_0000000000_10_0011#24 = .ok (.power 0b10#2 0b0011#4) := by decide

theorem test_decode_resetCmd :
    decodeFrame 0b00_101_000_000000000000000_1#24 = .ok (.resetCmd true) := by decide

theorem test_decode_setLdac :
    decodeFrame 0b00_110_000_000000000000_0101#24 = .ok (.setLdac 0b0101#4) := by decide

theorem test_decode_reference :
    decodeFrame 0b00_111_000_000000000000000_0#24 = .ok (.reference false) := by decide

theorem test_decode_operations :
    decodeTableWord 8 0x1 = some (.setch 0 0#3 0#3 0#16) ∧
    decodeTableWord 8 0x2 = some (.setch4 0 0#3 0#16 0#16 0#16 0#16) ∧
    decodeTableWord 8 0x3 = some (.update 0 0#3) ∧
    decodeTableWord 8 0x4 = some (.pwr 0 0#2 0#4) ∧
    decodeTableWord 8 0x5 = some (.pwrb 0 0#2 false false false false) ∧
    decodeTableWord 8 0x6 = some (.pwr4 0 0#2 0#2 0#2 0#2) ∧
    decodeTableWord 8 0x7 = some (.reset 0 false) ∧
    decodeTableWord 8 0x8 = some (.ldac 0 0#4) ∧
    decodeTableWord 8 0x9 = some (.ldacb 0 false false false false) ∧
    decodeTableWord 4 0xA = some (.ref 0 false) := by decide

/-- V50, V51 and the reserved bits of R61, R65, R74: rejected by name. -/
theorem test_decode_rejects :
    decodeReq { Req.zero with op := 0x0#4 } = .error (.reservedSelector 0x0#4) ∧
    decodeReq { Req.zero with op := 0xF#4 } = .error (.reservedSelector 0xF#4) ∧
    decodeFrame 0x400000#24 = .error (.reservedTopBits 0b01#2) ∧
    decodeFrame 0x080001#24 = .error (.strayBits 0b001#3) ∧
    decodeFrame 0x210000#24 = .error (.strayBits 0b100#3) ∧
    decodeFrame 0x200040#24 = .error (.strayBits 0b100#3) ∧
    decodeFrame 0x280002#24 = .error (.strayBits 0b101#3) ∧
    decodeFrame 0x300010#24 = .error (.strayBits 0b110#3) ∧
    decodeFrame 0x380100#24 = .error (.strayBits 0b111#3) ∧
    decodeBytes [0x19#8, 0x0A#8] = .error .truncated := by decide

/-! ### The pure functions: V1 to V12 -/

theorem test_encodeFrame_vectors :
    encodeFrame 0b000#3 0b000#3 0x0000#16 = 0x000000#24 ∧
    encodeFrame 0b111#3 0b111#3 0xFFFF#16 = 0x3FFFFF#24 ∧
    encodeFrame 0b011#3 0b010#3 0x00FF#16 = 0x1A00FF#24 ∧
    encodeFrame 0b011#3 0b010#3 0xFF00#16 = 0x1AFF00#24 ∧
    encodeFrame 0b000#3 0b011#3 0xFFFF#16 = 0x03FFFF#24 ∧
    encodeFrame 0b100#3 0b000#3 0x0000#16 = 0x200000#24 ∧
    encodeFrame 0b001#3 0b100#3 0x0000#16 = 0x0C0000#24 ∧
    encodeFrame 0b010#3 0b111#3 0x8000#16 = 0x178000#24 := by decide

/-- V9, the second and the ninth row: A is bit 0, D is bit 3. -/
theorem test_makeChannelMask_ends :
    makeChannelMask false false false true = 0b0001#4 ∧
    makeChannelMask true false false false = 0b1000#4 ∧
    makeChannelMask true false true false = 0b1010#4 := by decide

/-- V10 to V12b. -/
theorem test_data_words :
    powerWord 0b00#2 0b0000#4 = 0x0000#16 ∧ powerWord 0b11#2 0b1111#4 = 0x003F#16 ∧
    powerWord 0b01#2 0b1000#4 = 0x0018#16 ∧ boolWord true = 0x0001#16 ∧ boolWord false = 0x0000#16 ∧
    maskWord 0b0101#4 = 0x0005#16 ∧
    [singleMask 0, singleMask 1, singleMask 2, singleMask 3] =
      [0b0001#4, 0b0010#4, 0b0100#4, 0b1000#4] := by decide

/-! ### The operations -/

/-- V13 to V18. -/
theorem test_setch :
    framesOf (Calls.setChannel 0 inputOnly channelA 0x0000#16) = [0x000000#24] ∧
    framesOf (Calls.setChannel 0 inputOnly channelD 0xFFFF#16) = [0x03FFFF#24] ∧
    framesOf (Calls.setChannel 0 inputDacUpdateAll channelAll 0x8000#16) = [0x178000#24] ∧
    framesOf (Calls.setChannelAll 0 inputDac 0x1234#16) = [0x1F1234#24] ∧
    framesOf (Calls.setChannel 0 inputDacUpdateAll channelA 0xFFFF#16) = [0x10FFFF#24] := by decide

/-- V19: each of the five invalid set-modes leaves the block idle with nothing offered. -/
theorem test_setch_invalid :
    ∀ sm ∈ [0b001#3, 0b100#3, 0b101#3, 0b110#3, 0b111#3],
      offerAfter (.setch 0 sm channelA 0x1234#16) = some none := by decide

/-- V20. -/
theorem test_setch4 :
    framesOf (Calls.setChannel4 0 inputOnly 0x4444#16 0x3333#16 0x2222#16 0x1111#16) =
      [0x001111#24, 0x012222#24, 0x023333#24, 0x034444#24] := by decide

/-- V21; V22: zero frames, not four. -/
theorem test_setch4_lanes :
    framesOf (Calls.setChannelArray 0 inputDac #v[0xFFFF#16, 0x0000#16, 0x00FF#16, 0xFF00#16]) =
      [0x18FF00#24, 0x1900FF#24, 0x1A0000#24, 0x1BFFFF#24] ∧
    framesOf (Calls.setChannel4 0 0b111#3 1#16 2#16 3#16 4#16) = [] := by decide

/-- V23 to V27, V53. -/
theorem test_update :
    framesOf (.update 0 channelA) = [0x080000#24] ∧ framesOf (.update 0 channelD) = [0x0B0000#24] ∧
    framesOf (.update 0 channelAll) = [0x0F0000#24] ∧
    framesOf (.update 0 0b101#3) = [0x0D0000#24] := by decide

/-- V28, V30, V32, V33. -/
theorem test_pwr :
    framesOf (.pwr 0 pmNormal 0b0000#4) = [0x200000#24] ∧
    framesOf (.pwr 0 pm1k 0b0001#4) = [0x200011#24] ∧
    framesOf (.pwr 0 pmTristate 0b1010#4) = [0x20003A#24] ∧
    framesOf (.pwr 0 pmTristate 0b1111#4) = [0x20003F#24] := by decide

/-- V34 to V36. -/
theorem test_pwrb :
    framesOf (Calls.powerUpDownB 0 pmTristate true false true false) = [0x20003A#24] ∧
    framesOf (Calls.powerUpDownB 0 pm1k false false false true) = [0x200011#24] ∧
    framesOf (Calls.powerUpDownArray 0 pm1k #v[true, false, false, false]) = [0x200018#24] := by decide

/-- V37. -/
theorem test_pwr4 :
    framesOf (Calls.powerUpDown4 0 pmTristate pm100k pm1k pmNormal) =
      [0x200001#24, 0x200012#24, 0x200024#24, 0x200038#24] := by decide

/-- V38, reached by the array under either binding (R77 d). -/
theorem test_pwr4_bindings :
    framesOf (Calls.powerUpDownModes .entryKIsOrdinal3MinusK 0
      #v[pm1k, pmNormal, pmTristate, pmTristate]) =
      [0x200031#24, 0x200032#24, 0x200004#24, 0x200018#24] ∧
    framesOf (Calls.powerUpDownModes .entryKIsOrdinalK 0
      #v[pmTristate, pmTristate, pmNormal, pm1k]) =
      [0x200031#24, 0x200032#24, 0x200004#24, 0x200018#24] := by decide

/-- V40, V41. -/
theorem test_reset :
    framesOf (Calls.resetChip 0 true) = [0x280001#24] ∧
    framesOf (Calls.resetChip 0 false) = [0x280000#24] := by decide

/-- V43, V45. -/
theorem test_ldac :
    framesOf (Calls.setInputMode 0 0b0101#4) = [0x300005#24] ∧
    framesOf (Calls.setInputMode 0 0b1000#4) = [0x300008#24] := by decide

/-- V46, V47. -/
theorem test_ldacb :
    framesOf (Calls.setInputModeB 0 true false false false) = [0x300008#24] ∧
    framesOf (Calls.setInputModeArray 0 #v[false, true, false, true]) = [0x300005#24] := by decide

/-- V48, V49. -/
theorem test_ref :
    framesOf (Calls.useInternalReference 0 true) = [0x380001#24] ∧
    framesOf (Calls.useInternalReference 0 false) = [0x380000#24] := by decide

/-- U8: a mask with a bit above bit 3 is no call. -/
theorem test_maskOf : Calls.maskOf 0b1010 = some 0b1010#4 ∧ Calls.maskOf 16 = none := by decide

/-! ### One step -/

/-- E1 to E3 and one frame of every other command, each as the first step after reset. -/
theorem test_step_emits_each_frame :
    traceAfter 24 0x190ABC = some [⟨0, 0x190ABC#24⟩] ∧ traceAfter 24 0x280001 = some [⟨0, 0x280001#24⟩] ∧
    traceAfter 24 0x380000 = some [⟨0, 0x380000#24⟩] ∧ traceAfter 24 0x03FFFF = some [⟨0, 0x03FFFF#24⟩] ∧
    traceAfter 24 0x0F0000 = some [⟨0, 0x0F0000#24⟩] ∧ traceAfter 24 0x178000 = some [⟨0, 0x178000#24⟩] ∧
    traceAfter 24 0x20003A = some [⟨0, 0x20003A#24⟩] ∧ traceAfter 24 0x300005 = some [⟨0, 0x300005#24⟩] := by
  decide

/-- An operation as the first step after reset: its first frame is on offer, none is sent yet. -/
theorem test_step_accepts_operation :
    (nextOf (step (State.reset.placeRequest
      { Req.zero with op := 0x6#4, dev := 2, pmA := 0b01#2, pmD := 0b11#2 }))).map
      (fun s => (s.offer, s.reqReady, s.trace)) =
      some (some ⟨2, 0x200011#24⟩, false, []) := by decide

/-- P4: the second frame of a four-frame operation follows the first, to the same device. -/
theorem test_step_second_frame :
    (nextOf (step (started (.setch4 2 0b011#3 1#16 2#16 3#16 4#16) []))).map
      (fun s => (s.offer, s.trace, s.fidx)) =
      some (some ⟨2, 0x190002#24⟩, [⟨2, 0x180001#24⟩], 1#2) := by decide

/-- After the last frame the block is idle (R120, R22). -/
theorem test_step_last_frame :
    (nextOf (step { started (.pwr4 0 0#2 1#2 2#2 3#2) [] with fidx := 3#2 })).map
      (fun s => (s.busy, s.fidx, s.trace)) = some (false, 0#2, [⟨0, 0x200038#24⟩]) := by decide

/-- `frm_ready` = 0 holds the offer (R55). -/
theorem test_step_waits :
    (nextOf (step (started (.ref 1 true) [{ Edge.quiet with frmReady := false }]))).map
      (fun s => (s.offer, s.trace)) = some (some ⟨1, 0x380001#24⟩, []) := by decide

/-- `rst` in an operation abandons it (R190). -/
theorem test_step_rst :
    (nextOf (step (started (.ref 1 true) [{ Edge.quiet with rst := true }]))).map
      (fun s => (s.busy, s.offer, s.trace, s.cut)) =
      some (false, none, [], [⟨1, 0x380001#24⟩]) := by decide

/-- A reserved `req_op` is accepted and emits nothing: V50. -/
theorem test_step_reserved :
    (nextOf (step (State.reset.placeRequest { Req.zero with value := 0x1234#16 }))).map
      (fun s => (s.busy, s.trace)) = some (false, []) := by decide

/-- An aborted transfer ends the run (R172). -/
theorem test_step_abort :
    nextOf (step (started (.ref 1 true) [{ Edge.quiet with abort := true }])) = none := by decide

/-! ### The wire -/

/-- V54. -/
theorem test_serial_bits :
    (serialBits 0x190ABC#24).map Bool.toNat =
      [0, 0, 0, 1, 1, 0, 0, 1, 0, 0, 0, 0, 1, 0, 1, 0, 1, 0, 1, 1, 1, 1, 0, 0] := by decide

/-- A window opens with the select and the two reserved zeros (R44, R43), closes with the deselect, and
has 24 falling edges (R52). -/
theorem test_wire_window :
    (wireOf ⟨1, 0x180001#24⟩).take 5 =
      [.select 1, .sclkRise false, .sclkFall, .sclkRise false, .sclkFall] ∧
    (wireOf ⟨1, 0x180001#24⟩).drop 47 = [.sclkRise true, .sclkFall, .deselect 1] := by decide

/-- A listener closes a window at the deselect with what it sampled (R44, R48). -/
theorem test_listener :
    heard [.select 1, .sclkRise true, .sclkFall, .sclkRise false, .sclkFall, .deselect 1] =
      [(1, [true, false])] := by decide

/-- A window of device 0 is not closed, nor heard, by the release of device 1 (R44). -/
theorem test_listener_wrong_device :
    heard [.select 0, .sclkRise true, .sclkFall, .deselect 1] = [] ∧
    heard [.select 0, .sclkRise true, .sclkFall, .deselect 1, .deselect 0] = [(0, [true])] := by decide

/-- P4: a device's part of the trace (R56). -/
theorem test_deviceTrace :
    deviceTrace 2 [⟨1, 0x180001#24⟩, ⟨2, 0x190002#24⟩] = [⟨2, 0x190002#24⟩] := by decide

/-! ### Witnesses: the hypotheses of each statement are met together -/

/-- `EncodeFrameFieldByField` (equal frames) and `ReadFrameInvertsEncodeFrame` (reserved bits 00). -/
theorem witness_frames :
    encodeFrame 0b011#3 0b001#3 0x0ABC#16 = encodeFrame 0b011#3 0b001#3 0x0ABC#16 ∧
    frameZero 0x3FFFFF#24 = 0b00#2 := by decide

/-- `DecodeOfEncodeIsIdentity`: a frame that decodes. -/
theorem witness_decodes : decodeFrame 0x200023#24 = .ok (.power 0b10#2 0b0011#4) := by decide

/-- `AddressedFrameCommandsEmit`: each of the four frames on offer at an edge with `frm_ready`. -/
theorem witness_addressed_offers :
    offeredReady 0x071234#24 = true ∧ offeredReady 0x0F0000#24 = true ∧
    offeredReady 0x171234#24 = true ∧ offeredReady 0x1F1234#24 = true := by decide

/-- Those four are the statement's frames, for address ALL and data 0x1234. -/
theorem witness_addressed_frames :
    frameWord 0b000#3 0b111#3 0x1234#16 = 0x071234#24 ∧
    frameWord 0b001#3 0b111#3 0x0000#16 = 0x0F0000#24 ∧
    frameWord 0b010#3 0b111#3 0x1234#16 = 0x171234#24 ∧
    frameWord 0b011#3 0b111#3 0x1234#16 = 0x1F1234#24 := by decide

/-- `ControlFrameCommandsEmit`: each of the six frames on offer at an edge with `frm_ready`. -/
theorem witness_control_offers :
    offeredReady 0x20003F#24 = true ∧ offeredReady 0x280001#24 = true ∧
    offeredReady 0x280000#24 = true ∧ offeredReady 0x30000F#24 = true ∧
    offeredReady 0x380001#24 = true ∧ offeredReady 0x380000#24 = true := by decide

/-- `FrameCommandsWaitForTheHandshake`: another frame on offer; this frame with `frm_ready` 0. -/
theorem witness_frame_waits :
    encode (.reference true) = .frame 0x380001#24 ∧
    (State.reset.placeFrame 0x380000#24).frmBits ≠ some 0x380001#24 ∧
    (started (.ref 0 true) [{ Edge.quiet with frmReady := false }]).frmBits = some 0x380001#24 ∧
    (started (.ref 0 true) [{ Edge.quiet with frmReady := false }]).now.frmReady = false := by decide

/-- `RunsAs`, of every operation: an idle block with undisturbed edges to come, listed or not. -/
theorem witness_runs :
    State.reset.reqReady = true ∧ Undisturbed 4 State.reset.edges.tail ∧
    Undisturbed 4 [Edge.quiet, Edge.quiet] := by
  refine ⟨rfl, ?_, ?_⟩ <;> simp [Undisturbed, State.reset, Edge.quiet]

/-- The operations' decoding clauses, at each selector code. -/
theorem witness_selectors :
    ∀ op ∈ [0x1#4, 0x2#4, 0x3#4, 0x4#4, 0x5#4, 0x6#4, 0x7#4, 0x8#4, 0x9#4, 0xA#4],
      (Req.naming op 7).op = op := by decide

/-- `SetModeCommands`, `SetchFour…`, `InvalidSetModeEmitsNothing`: a recognised and an invalid set-mode,
at the boundary codes. -/
theorem witness_setmodes :
    setModeCmd 0b000#3 = some .writeInput ∧ setModeCmd 0b010#3 = some .writeInputUpdateAll ∧
    setModeCmd 0b011#3 = some .writeUpdate ∧ setModeCmd 0b001#3 = none ∧
    setModeCmd 0b111#3 = none := by decide

/-- `InvalidSetModeEmitsNothing`, last clause: a request that decodes and has no frame. -/
theorem witness_no_frames :
    decodeReq { Req.naming 0x2#4 0 with setmode := 0b100#3 } =
      .ok (.setch4 0 0b100#3 0#16 0#16 0#16 0#16) ∧
    frames { Req.naming 0x2#4 0 with setmode := 0b100#3 } = [] := by decide

/-- `PwrbRunsAsPwrOfTheMask`: equal masks. -/
theorem witness_masks :
    makeChannelMask true false true false = makeChannelMask true false true false := by decide

/-- `OperationsWaitWhileBusy`: an operation while another is in progress. -/
theorem witness_busy :
    (encode (.ref 3 true) = .request { Req.naming 0xA#4 3 with flag := true }) ∧
    (started (.pwr 0 0#2 0#4) []).reqReady = false := by decide

/-- `ReservedSelectorEmitsNothing`: each end of the reserved codes on the port of an idle block. -/
theorem witness_reserved :
    ∀ op ∈ [0x0#4, 0xB#4, 0xF#4],
      (State.reset.placeRequest (Req.naming op 1)).now.rst = false ∧
      (State.reset.placeRequest (Req.naming op 1)).reqReady = true ∧
      (State.reset.placeRequest (Req.naming op 1)).now.reqValid = true ∧
      ((State.reset.placeRequest (Req.naming op 1)).now.req.op = 0x0#4 ∨
        0xB#4 ≤ (State.reset.placeRequest (Req.naming op 1)).now.req.op) := by decide

/-- `OperationsFrame`: a next state in each of the three cases. -/
theorem witness_operations_next :
    (nextOf (exec (.ref 0 true) (started (.pwr 0 0#2 0#4) []))).isSome = true ∧
    (nextOf (exec (.ref 0 true) State.reset)).isSome = true ∧
    (nextOf (exec (.setch 0 0b001#3 0#3 0#16) State.reset)).isSome = true := by decide

/-- `FrameCommandsFrame`: a next state when it waits, when frames remain, and at the last frame. -/
theorem witness_frame_commands_next :
    (nextOf (exec (.reference true) State.reset)).isSome = true ∧
    encode (.power 0#2 1#4) = .frame 0x200001#24 ∧
    (nextOf (exec (.power 0#2 1#4) (started (.pwr4 0 0#2 1#2 2#2 3#2) []))).map
      (fun t => (t.busy, t.fidx)) = some (true, 1#2) ∧
    (nextOf (exec (.reference true) (started (.ref 0 true) []))).map State.busy = some false := by
  decide

/-- `StepExecutesTheDecodedInstruction`: a request on the port of an idle block, a frame on offer. -/
theorem witness_fetch :
    (State.reset.placeRequest (Req.naming 0xA#4 0)).now.rst = false ∧
    (State.reset.placeRequest (Req.naming 0xA#4 0)).aborting = false ∧
    (State.reset.placeRequest (Req.naming 0xA#4 0)).busy = false ∧
    (State.reset.placeRequest (Req.naming 0xA#4 0)).now.reqValid = true ∧
    decodeReq (State.reset.placeRequest (Req.naming 0xA#4 0)).now.req = .ok (.ref 0 false) ∧
    (started (.ref 0 true) []).now.rst = false ∧ (started (.ref 0 true) []).aborting = false ∧
    (started (.ref 0 true) []).offer = some ⟨0, 0x380001#24⟩ ∧
    decodeFrame 0x380001#24 = .ok (.reference true) := by decide

/-- `OnlyAnAbortedTransferStops`: a reliable transport; an edge at which a transfer aborts. -/
theorem witness_transport :
    TransportReliable (started (.ref 0 true) [Edge.quiet]) ∧
    (started (.ref 0 true) [{ Edge.quiet with abort := true }]).now.rst = false ∧
    (started (.ref 0 true) [{ Edge.quiet with abort := true }]).now.abort = true ∧
    (started (.ref 0 true) [{ Edge.quiet with abort := true }]).frmValid = true := by
  refine ⟨?_, by decide, by decide, by decide⟩
  intro e he
  obtain rfl := List.mem_singleton.mp he
  rfl

/-- `ResetEdgeAbandonsTheOperation`: `rst` in an operation. -/
theorem witness_rst : (started (.ref 0 true) [{ Edge.quiet with rst := true }]).now.rst = true := by
  decide

/-- `TraceGrowsOnlyByTheOffer`, `StepKeeps…`: steps that emit, accept and reset. -/
theorem witness_steps :
    (nextOf (step (started (.pwr4 0 0#2 1#2 2#2 3#2) []))).map State.trace =
      some [⟨0, 0x200001#24⟩] ∧
    (nextOf (step (State.reset.placeRequest (Req.naming 0xA#4 0)))).isSome = true ∧
    (nextOf (step (started (.ref 0 true) [{ Edge.quiet with rst := true }]))).isSome = true := by decide

/-- `OfferHeldWhileNotReady`: a frame on offer and an edge with `frm_ready` 0. -/
theorem witness_held :
    (started (.ref 0 true) [{ Edge.quiet with frmReady := false }]).offer =
      some ⟨0, 0x380001#24⟩ ∧
    1 ≤ (started (.ref 0 true) [{ Edge.quiet with frmReady := false }]).edges.length ∧
    ∀ x ∈ (started (.ref 0 true) [{ Edge.quiet with frmReady := false }]).edges.take 1,
      x.rst = false ∧ x.abort = false ∧ x.frmReady = false := by decide

/-- `RequestWiresIgnoredWhileBusy`: a busy block, and two edges that differ in the request alone. -/
theorem witness_wires :
    (started (.ref 0 true) []).busy = true ∧
    Edge.quiet ≠ { Edge.quiet with reqValid := true, req := Req.naming 0x7#4 9 } := by decide

/-- `UnreadFieldsHaveNoEffect`: two requests that differ in a field their operation does not read. -/
theorem witness_unread :
    Req.naming 0xA#4 0 ≠ { Req.naming 0xA#4 0 with value := 0x1234#16 } ∧
    decodeReq (Req.naming 0xA#4 0) =
      decodeReq { Req.naming 0xA#4 0 with value := 0x1234#16 } := by decide

/-- `FrameCountOfEachOperation`: a request of each of its classes. -/
theorem witness_counts :
    (frames (Req.naming 0x6#4 0)).length = 4 ∧ (frames (Req.naming 0x2#4 0)).length = 4 ∧
    (frames (Req.naming 0x1#4 0)).length = 1 ∧ (frames (Req.naming 0x3#4 0)).length = 1 ∧
    (frames (Req.naming 0xA#4 0)).length = 1 ∧ (frames (Req.naming 0xB#4 0)).length = 0 := by decide

/-- `StepKeepsTheInvariant`: a busy state that meets the sequencer's invariant and the trace's. -/
theorem witness_inv : Inv (started (.pwr4 0 0#2 1#2 2#2 3#2) []) := by
  refine ⟨⟨by decide, by decide⟩, fun e he => ?_⟩
  cases he

/-- `StepKeepsTheDomain`: a busy state whose requests, present and to come, are in the domain. -/
theorem witness_domain :
    DomainOk 2 (started (.ref 3 true)
      [{ Edge.quiet with reqValid := true, req := Req.naming 0x3#4 1 }]) := by
  refine ⟨fun e he _ => ?_, fun _ => ⟨.ref 3 true, by decide, by decide, by decide⟩, fun e he => ?_⟩
  · obtain rfl := List.mem_singleton.mp he
    exact ⟨.update 1 0#3, by decide, by decide, by decide⟩
  · cases he

/-- `TraceIsTheAcceptedRequestsInOrder`, `OtherDevicesUndisturbed`: no reset listed, a run of one step
that accepts a request for device 1 and none for device 2. -/
theorem witness_run :
    (∀ e ∈ (State.reset.placeRequest (Req.naming 0x3#4 1)).edges.take 1, e.rst = false) ∧
    (nextOf (Host.Core.run Sys2Proof.core 1
      (State.reset.placeRequest (Req.naming 0x3#4 1)))).isSome = true ∧
    (State.reset.placeRequest (Req.naming 0x3#4 1)).busy = false ∧
    (acceptedIn 1 (State.reset.placeRequest (Req.naming 0x3#4 1))).map Req.dev = [1] := by decide

/-- `NothingRememberedBetweenOperations`: two idle states with different pasts and the same input. -/
theorem witness_pasts :
    let s := State.reset.placeRequest (Req.naming 0x3#4 1)
    let s' := { s with lat := Req.naming 0x6#4 5, trace := [⟨5, 0x200001#24⟩], draws := 3 }
    s.busy = false ∧ s'.busy = false ∧ s.edges = s'.edges ∧ s ≠ s' ∧
      (nextOf (Host.Core.run Sys2Proof.core 1 s)).isSome = true := by decide

/-- `OperationsComplete`: an operation in progress, a transport that waits once, no reset. -/
theorem witness_completes :
    SequencerOk (started (.pwr4 0 0#2 1#2 2#2 3#2) [{ Edge.quiet with frmReady := false }]) ∧
    TransportReliable (started (.pwr4 0 0#2 1#2 2#2 3#2) [{ Edge.quiet with frmReady := false }]) ∧
    NoReset (started (.pwr4 0 0#2 1#2 2#2 3#2) [{ Edge.quiet with frmReady := false }]) ∧
    Undisturbed 4 (started (.pwr4 0 0#2 1#2 2#2 3#2) []).edges := by
  refine ⟨⟨by decide, by decide⟩, fun e he => ?_, fun e he => ?_, fun e he => ?_⟩
  · obtain rfl := List.mem_singleton.mp he
    rfl
  · obtain rfl := List.mem_singleton.mp he
    rfl
  · cases he

end Sys2Proof.Tests
end

/-! ### The serial bits of a frame (R42, R43, R52) -/

namespace Sys2Proof.Machine

@[simp] theorem length_bitsMsbFirst (b : Byte) : (bitsMsbFirst b).length = 8 := rfl

/-- Position `i` of a byte's serial bits holds bit `7 - i` of the byte (R43). -/
theorem getElem?_bitsMsbFirst (b : Byte) {i : Nat} (hi : i < 8) :
    (bitsMsbFirst b)[i]? = some (b.getLsbD (7 - i)) := by
  interval_cases i <;> rfl

/-- The same for the byte that stands at bit `n` of a frame, in terms of the frame's own bits. -/
theorem getElem?_bitsMsbFirst_extractLsb' (f : Frame) (n : Nat) {i : Nat} (hi : i < 8) :
    (bitsMsbFirst (f.extractLsb' n 8))[i]? = some (f.getLsbD (n + (7 - i))) := by
  have hbit : 7 - i < 8 := by omega
  simp [getElem?_bitsMsbFirst _ hi, hbit]

/-- The serial bits are those of the three bytes, byte0 first (R42). -/
theorem serialBits_eq_append (f : Frame) :
    serialBits f = bitsMsbFirst (f.extractLsb' 16 8) ++
      (bitsMsbFirst (f.extractLsb' 8 8) ++ bitsMsbFirst (f.extractLsb' 0 8)) := rfl

@[simp] theorem length_serialBits (f : Frame) : (serialBits f).length = 24 := rfl

/-- Position `t` lies in the byte at bit 16, 8 or 0 of the frame, after 0, 8 or 16 earlier bits (R43). -/
theorem getElem?_serialBits (f : Frame) {t : Nat} (ht : t < 24) :
    (serialBits f)[t]? = some (f.getLsbD (23 - t)) := by
  rw [serialBits_eq_append]
  rcases Nat.lt_or_ge t 8 with h8 | h8
  · have hpos : 16 + (7 - t) = 23 - t := by omega
    rw [List.getElem?_append_left (by simpa using h8),
      getElem?_bitsMsbFirst_extractLsb' f 16 h8, hpos]
  rw [List.getElem?_append_right (by simpa using h8), length_bitsMsbFirst]
  rcases Nat.lt_or_ge t 16 with h16 | h16
  · have hi : t - 8 < 8 := by omega
    have hpos : 8 + (7 - (t - 8)) = 23 - t := by omega
    rw [List.getElem?_append_left (by simpa using hi),
      getElem?_bitsMsbFirst_extractLsb' f 8 hi, hpos]
  · have hi : t - 8 - 8 < 8 := by omega
    have hpos : 0 + (7 - (t - 8 - 8)) = 23 - t := by omega
    rw [List.getElem?_append_right (by simp; omega), length_bitsMsbFirst,
      getElem?_bitsMsbFirst_extractLsb' f 0 hi, hpos]

/-- Settles O5: the count and the bit at each position, by the byte the position lies in. -/
theorem serialBitAtPosition : Obligations.SerialBitAtPosition :=
  fun f => ⟨length_serialBits f, fun _ ht => getElem?_serialBits f ht⟩

end Sys2Proof.Machine

/-! ### Format F24 read back (R60, R79) -/

namespace Sys2Proof.Machine

@[simp] theorem readFrame_frameWord (c a : BitVec 3) (d : Data) :
    readFrame (frameWord c a d) = (c, a, d) := by simp [readFrame]

theorem readFrame_encodeFrame (c a : BitVec 3) (d : Data) :
    readFrame (encodeFrame c a d) = (c, a, d) := by rw [encodeFrame_eq, readFrame_frameWord]

/-- A field that lies below bit 22 of a frame does not see what stands in bits 23 and 22. -/
theorem extractLsb'_replaceTop (f : Frame) (z : BitVec 2) {lo w : Nat} (h : lo + w ≤ 22) :
    (z ++ f.extractLsb' 0 22).extractLsb' lo w = f.extractLsb' lo w := by
  rw [BitVec.extractLsb'_append_eq_of_add_le h, BitVec.extractLsb'_extractLsb'_of_le h]

/-- Each of the three fields that are read lies below bit 22 (R79). -/
theorem readFrame_replaceTop (f : Frame) (z : BitVec 2) :
    readFrame (z ++ f.extractLsb' 0 22) = readFrame f := by
  have hcmd : frameCmd (z ++ f.extractLsb' 0 22) = frameCmd f :=
    extractLsb'_replaceTop f z (by decide : 19 + 3 ≤ 22)
  have haddr : frameAddr (z ++ f.extractLsb' 0 22) = frameAddr f :=
    extractLsb'_replaceTop f z (by decide : 16 + 3 ≤ 22)
  have hdata : frameData (z ++ f.extractLsb' 0 22) = frameData f :=
    extractLsb'_replaceTop f z (by decide : 0 + 16 ≤ 22)
  simp only [readFrame, hcmd, haddr, hdata]

/-- Settles O2: `encodeFrame` is format F24, whose fields are read back and whose reserved bits are
not read. -/
theorem readFrameInvertsEncodeFrame : Obligations.ReadFrameInvertsEncodeFrame :=
  ⟨readFrame_encodeFrame, fun _ hz => Laws.encodeFrame_fields hz rfl, readFrame_replaceTop⟩

/-! ### Written-out words (R60, R62, R65, R71, R72) -/

/-- A reserved `req_op` is rejected by name, whatever the other fields are (R72). -/
theorem decodeReq_of_reserved {r : Req} (h : r.op = 0x0#4 ∨ 0xB#4 ≤ r.op) :
    decodeReq r = .error (.reservedSelector r.op) := by
  unfold decodeReq
  split
  case h_11 => rfl
  all_goals
    rename_i hop
    rw [hop] at h
    exact absurd h (by decide)

/-- Settles O4: the words are closed instances of the decoder's equations, and no reserved selector
is one of the ten. -/
theorem writtenOutWordsDecode : Obligations.WrittenOutWordsDecode := by
  unfold Obligations.WrittenOutWordsDecode
  refine ⟨?e1, ?writeInput, ?updateDac, ?writeInputUpdateAll, ?power, ?resetCmd, ?setLdac,
    ?reference, ?topBits, rfl, rfl, rfl, rfl, rfl, rfl, rfl, rfl, rfl, rfl,
    fun _ hop => decodeReq_of_reserved hop⟩
  all_goals decide

end Sys2Proof.Machine

/-! ### `encodeFrame` field by field (R100) -/

namespace Sys2Proof.Machine

/-- byte2 of R100, `d & 0xFF`, is the lower half of the data word. -/
theorem setWidth_and_lowByte (d : Data) :
    (d &&& 0x00FF#16).setWidth 8 = d.extractLsb' 0 8 := by
  have hmask : (0x00FF#16).setWidth 8 = BitVec.allOnes 8 := by decide
  rw [BitVec.setWidth_and, hmask, BitVec.and_allOnes, BitVec.setWidth_eq_extractLsb' (by decide)]

/-- A frame determines its command, address and data: `readFrame` is a left inverse (R79, R100). -/
theorem encodeFrame_injective {c a c' a' : BitVec 3} {d d' : Data}
    (h : encodeFrame c a d = encodeFrame c' a' d') : c = c' ∧ a = a' ∧ d = d' := by
  have hread : (c, a, d) = (c', a', d') := by
    rw [← readFrame_encodeFrame c a d, h, readFrame_encodeFrame]
  simpa using hread

/-- Settles O1: the fields are those of format F24, the bytes are the pseudocode's, and reading the
frame back tells two triples apart. -/
theorem encodeFrameFieldByField : Obligations.EncodeFrameFieldByField := by
  refine ⟨fun c a d => ⟨?zero, ?cmd, ?addr, ?bytes⟩,
    fun _ _ _ _ _ _ => encodeFrame_injective, by decide⟩
  case zero => rw [encodeFrame_eq, frameZero_frameWord]
  case cmd => rw [encodeFrame_eq, frameCmd_frameWord]
  case addr => rw [encodeFrame_eq, frameAddr_frameWord]
  case bytes =>
    rw [frameBytes_encodeFrame, BitVec.setWidth_ushiftRight_eq_extractLsb, setWidth_and_lowByte]

end Sys2Proof.Machine

/-! ### Channel data: `SETCH` and `UPDATE` as runs (R122, R124) -/

namespace Sys2Proof.Machine

theorem framesSetch_of_some {sm : BitVec 3} {c : Cmd} (h : setModeCmd sm = some c)
    (a : BitVec 3) (v : Data) : framesSetch sm a v = [encodeFrame (Cmd.code c) a v] := by
  simp only [framesSetch, h]

theorem framesSetch_of_none {sm : BitVec 3} (h : setModeCmd sm = none) (a : BitVec 3) (v : Data) :
    framesSetch sm a v = [] := by
  simp only [framesSetch, h]

/-- The request that encodes `SETCH` has the frames of R122. -/
theorem runsAs_setch (dev : Dev) (sm a : BitVec 3) (v : Data) :
    RunsAs (.setch dev sm a v) dev (framesSetch sm a v) :=
  Laws.runsAs_of_encode
    (r := { Req.naming 0x1#4 dev with setmode := sm, addr := a, value := v }) rfl rfl

/-- The request that encodes `UPDATE` has the frame of R124. -/
theorem runsAs_update (dev : Dev) (a : BitVec 3) :
    RunsAs (.update dev a) dev (framesUpdate a) :=
  Laws.runsAs_of_encode (r := { Req.naming 0x3#4 dev with addr := a }) rfl rfl

theorem decodeReq_of_setch {r : Req} (h : r.op = 0x1#4) :
    decodeReq r = .ok (.setch r.dev r.setmode r.addr r.value) := by
  simp only [decodeReq, h]

theorem decodeReq_of_update {r : Req} (h : r.op = 0x3#4) :
    decodeReq r = .ok (.update r.dev r.addr) := by
  simp only [decodeReq, h]

/-- Settles O10: `SETCH` runs as `framesSetch`, which is one frame or none as the set-mode names a
command or not; the example is a closed instance of it. -/
theorem setchEmitsItsFrame : Obligations.SetchEmitsItsFrame := by
  refine ⟨fun _ => decodeReq_of_setch, fun dev sm a v => ?frames, fun dev => ?document⟩
  case frames =>
    have hrun := runsAs_setch dev sm a v
    cases hc : setModeCmd sm with
    | none => rwa [framesSetch_of_none hc] at hrun
    | some c => rwa [framesSetch_of_some hc] at hrun
  case document =>
    have hword : framesSetch inputDac channelB 0x0ABC#16 = [0x190ABC#24] := by decide
    exact hword ▸ runsAs_setch dev inputDac channelB 0x0ABC#16

/-- Settles O14: `UPDATE` runs as `framesUpdate`, one frame for every address; the frame for ALL is a
closed instance of it. -/
theorem updateEmitsItsFrame : Obligations.UpdateEmitsItsFrame := by
  refine ⟨fun _ => decodeReq_of_update, runsAs_update, fun dev => ?all⟩
  case all =>
    have hword : framesUpdate channelAll = [0x0F0000#24] := by decide
    exact hword ▸ runsAs_update dev channelAll

end Sys2Proof.Machine

/-! ### The data words and the channel mask as numbers (R101 to R103, R116) -/

namespace Sys2Proof.Machine

/-- The mode stands in bits 5:4 and the mask in bits 3:0 (R102). -/
theorem toNat_powerWord (pm : BitVec 2) (m : BitVec 4) :
    (powerWord pm m).toNat = 16 * pm.toNat + m.toNat := by
  have hmode : (0#10 ++ pm).toNat = pm.toNat := by
    rw [BitVec.toNat_append, BitVec.toNat_ofNat, Nat.zero_mod, Nat.zero_shiftLeft, Nat.zero_or]
  rw [powerWord_eq, BitVec.toNat_append, hmode, ← Nat.shiftLeft_add_eq_or_of_lt m.isLt,
    Nat.shiftLeft_eq, Nat.mul_comm]

/-- D, C, B, A stand in bits 3, 2, 1, 0 (R101). -/
theorem toNat_makeChannelMask : ∀ d c b a : Bool,
    (makeChannelMask d c b a).toNat = 8 * d.toNat + 4 * c.toNat + 2 * b.toNat + a.toNat := by
  decide

/-- A mask determines its four booleans: they are the binary digits of its number (R101). -/
theorem makeChannelMask_injective {d c b a d' c' b' a' : Bool}
    (h : makeChannelMask d c b a = makeChannelMask d' c' b' a') :
    d = d' ∧ c = c' ∧ b = b' ∧ a = a' := by
  have hnum := congrArg BitVec.toNat h
  rw [toNat_makeChannelMask, toNat_makeChannelMask] at hnum
  have hinj : ∀ {x y : Bool}, x.toNat = y.toNat → x = y :=
    (Function.LeftInverse.injective Bool.ofNat_toNat ·)
  have hc := c.toNat_le; have hb := b.toNat_le; have ha := a.toNat_le
  have hc' := c'.toNat_le; have hb' := b'.toNat_le; have ha' := a'.toNat_le
  exact ⟨hinj (by omega), hinj (by omega), hinj (by omega), hinj (by omega)⟩

/-- A boolean is the word 1 or 0 (R103). -/
theorem boolWord_eq_ite (b : Bool) : boolWord b = if b then 0x0001#16 else 0x0000#16 := by
  cases b <;> rfl

end Sys2Proof.Machine

/-! ### Control operations as runs (R140 to R143, R146) -/

namespace Sys2Proof.Machine

theorem decodeReq_of_pwr {r : Req} (h : r.op = 0x4#4) :
    decodeReq r = .ok (.pwr r.dev r.pmode r.mask) := by
  simp only [decodeReq, h]

theorem decodeReq_of_pwrb {r : Req} (h : r.op = 0x5#4) :
    decodeReq r = .ok (.pwrb r.dev r.pmode r.enA r.enB r.enC r.enD) := by
  simp only [decodeReq, h]

theorem decodeReq_of_pwr4 {r : Req} (h : r.op = 0x6#4) :
    decodeReq r = .ok (.pwr4 r.dev r.pmA r.pmB r.pmC r.pmD) := by
  simp only [decodeReq, h]

theorem decodeReq_of_reset {r : Req} (h : r.op = 0x7#4) :
    decodeReq r = .ok (.reset r.dev r.flag) := by
  simp only [decodeReq, h]

theorem decodeReq_of_ref {r : Req} (h : r.op = 0xA#4) :
    decodeReq r = .ok (.ref r.dev r.flag) := by
  simp only [decodeReq, h]

/-- The request that encodes `PWR` has the frame of R140. -/
theorem runsAs_pwr (dev : Dev) (pm : BitVec 2) (m : BitVec 4) :
    RunsAs (.pwr dev pm m) dev (framesPwr pm m) :=
  Laws.runsAs_of_encode (r := { Req.naming 0x4#4 dev with pmode := pm, mask := m }) rfl rfl

/-- The request that encodes `PWRB` has the frame that `PWR` has for the aggregated mask (R141). -/
theorem runsAs_pwrb (dev : Dev) (pm : BitVec 2) (eA eB eC eD : Bool) :
    RunsAs (.pwrb dev pm eA eB eC eD) dev (framesPwr pm (makeChannelMask eD eC eB eA)) :=
  Laws.runsAs_of_encode
    (r := { Req.naming 0x5#4 dev with pmode := pm, enA := eA, enB := eB, enC := eC, enD := eD })
    rfl rfl

/-- The request that encodes `PWR4` has the frames of R142. -/
theorem runsAs_pwr4 (dev : Dev) (pA pB pC pD : BitVec 2) :
    RunsAs (.pwr4 dev pA pB pC pD) dev (framesPwr4 pA pB pC pD) :=
  Laws.runsAs_of_encode
    (r := { Req.naming 0x6#4 dev with pmA := pA, pmB := pB, pmC := pC, pmD := pD }) rfl rfl

/-- The request that encodes `RESET` has the frame of R143. -/
theorem runsAs_reset (dev : Dev) (full : Bool) : RunsAs (.reset dev full) dev (framesReset full) :=
  Laws.runsAs_of_encode (r := { Req.naming 0x7#4 dev with flag := full }) rfl rfl

/-- The request that encodes `REF` has the frame of R146. -/
theorem runsAs_ref (dev : Dev) (yes : Bool) : RunsAs (.ref dev yes) dev (framesRef yes) :=
  Laws.runsAs_of_encode (r := { Req.naming 0xA#4 dev with flag := yes }) rfl rfl

/-- The single-channel masks of R116 are 0001, 0010, 0100, 1000, in the order A, B, C, D (R142). -/
theorem framesPwr4_eq (pA pB pC pD : BitVec 2) :
    framesPwr4 pA pB pC pD =
      framesPwr pA 0b0001#4 ++ framesPwr pB 0b0010#4 ++
        framesPwr pC 0b0100#4 ++ framesPwr pD 0b1000#4 := by
  have hA : singleMask 0 = 0b0001#4 := by decide
  have hB : singleMask 1 = 0b0010#4 := by decide
  have hC : singleMask 2 = 0b0100#4 := by decide
  have hD : singleMask 3 = 0b1000#4 := by decide
  rw [framesPwr4, hA, hB, hC, hD]
  rfl

theorem framesReset_eq_ite (full : Bool) :
    framesReset full =
      [encodeFrame 0b101#3 0b000#3 (if full then 0x0001#16 else 0x0000#16)] := by
  rw [framesReset, boolWord_eq_ite]
  rfl

theorem framesRef_eq_ite (yes : Bool) :
    framesRef yes = [encodeFrame 0b111#3 0b000#3 (if yes then 0x0001#16 else 0x0000#16)] := by
  rw [framesRef, boolWord_eq_ite]
  rfl

/-- Settles O15: `PWR` runs as `framesPwr`, one `POWER` frame for every mode and mask; the rule's
example is a closed instance of it. -/
theorem pwrEmitsItsFrame : Obligations.PwrEmitsItsFrame := by
  refine ⟨fun _ => decodeReq_of_pwr,
    fun dev pm m => ⟨runsAs_pwr dev pm m, toNat_powerWord pm m⟩, fun dev => ?document⟩
  case document =>
    have hword : framesPwr pm100k 0b0011#4 = [0x200023#24] := by decide
    exact hword ▸ runsAs_pwr dev pm100k 0b0011#4

/-- Settles O16: `PWRB` and `PWR` of the aggregated mask run as the same `framesPwr`, and the mask's
number has the four booleans as its digits. -/
theorem pwrbRunsAsPwrOfTheMask : Obligations.PwrbRunsAsPwrOfTheMask := by
  refine ⟨fun _ => decodeReq_of_pwrb, fun dev pm eA eB eC eD => ⟨?booleans, ?mask, ?number⟩,
    fun _ _ _ _ _ _ _ _ => makeChannelMask_injective, fun dev => ?document⟩
  case booleans => exact runsAs_pwrb dev pm eA eB eC eD
  case mask => exact runsAs_pwr dev pm (makeChannelMask eD eC eB eA)
  case number => exact toNat_makeChannelMask eD eC eB eA
  case document =>
    have hword : framesPwr pmTristate (makeChannelMask true false true false) = [0x20003A#24] := by
      decide
    exact hword ▸ runsAs_pwrb dev pmTristate false true false true

/-- Settles O17: `PWR4` runs as `framesPwr4`, one `POWER` frame of each channel alone; the rule's
example is a closed instance of it. -/
theorem pwrFourEmitsFourFrames : Obligations.PwrFourEmitsFourFrames := by
  refine ⟨fun _ => decodeReq_of_pwr4, fun dev pA pB pC pD => ?frames, fun dev => ?document⟩
  case frames =>
    have hrun := runsAs_pwr4 dev pA pB pC pD
    rwa [framesPwr4_eq] at hrun
  case document =>
    have hwords : framesPwr4 pmNormal pm1k pm100k pmTristate =
        [0x200001#24, 0x200012#24, 0x200024#24, 0x200038#24] := by decide
    exact hwords ▸ runsAs_pwr4 dev pmNormal pm1k pm100k pmTristate

/-- Settles O18: `RESET` runs as `framesReset`, whose word is the flag; the literal frames are its
two closed instances. -/
theorem resetOperationEmitsItsFrame : Obligations.ResetOperationEmitsItsFrame := by
  refine ⟨fun _ => decodeReq_of_reset, fun dev b => ?frame, fun dev => ⟨?full, ?notFull⟩⟩
  case frame => exact framesReset_eq_ite b ▸ runsAs_reset dev b
  case full =>
    have hword : framesReset true = [0x280001#24] := by decide
    exact hword ▸ runsAs_reset dev true
  case notFull =>
    have hword : framesReset false = [0x280000#24] := by decide
    exact hword ▸ runsAs_reset dev false

/-- Settles O20: `REF` runs as `framesRef`, whose word is the boolean; the literal frames are its
two closed instances. -/
theorem refEmitsItsFrame : Obligations.RefEmitsItsFrame := by
  refine ⟨fun _ => decodeReq_of_ref, fun dev b => ?frame, fun dev => ⟨?no, ?yes⟩⟩
  case frame => exact framesRef_eq_ite b ▸ runsAs_ref dev b
  case no =>
    have hword : framesRef false = [0x380000#24] := by decide
    exact hword ▸ runsAs_ref dev false
  case yes =>
    have hword : framesRef true = [0x380001#24] := by decide
    exact hword ▸ runsAs_ref dev true

end Sys2Proof.Machine

/-! ### The invalid set-mode (R171, R121) -/

namespace Sys2Proof.Machine

/-- `SETCH` has no frame exactly when its set-mode names no command (R122). -/
theorem framesSetch_eq_nil_iff {sm a : BitVec 3} {v : Data} :
    framesSetch sm a v = [] ↔ setModeCmd sm = none := by
  cases hc : setModeCmd sm with
  | none => simp [framesSetch_of_none hc]
  | some c => simp [framesSetch_of_some hc]

/-- `SETCH4` has no frame exactly when its set-mode names no command (R123). -/
theorem framesSetch4_eq_nil_iff {sm : BitVec 3} {vA vB vC vD : Data} :
    framesSetch4 sm vA vB vC vD = [] ↔ setModeCmd sm = none := by
  cases hc : setModeCmd sm with
  | none => simp [framesSetch4, hc]
  | some c => simp [framesSetch4, hc]

/-- Each of the other eight operations has a frame for every operand (R124, R140 to R146). -/
theorem invalid_setmode_of_frames_eq_nil {r : Req} {i : Instr} (h : decodeReq r = .ok i)
    (hf : frames r = []) : (r.op = 0x1#4 ∨ r.op = 0x2#4) ∧ setModeCmd r.setmode = none := by
  unfold decodeReq at h
  split at h
  case h_1 hop =>
    simp only [frames, hop] at hf
    exact ⟨.inl hop, framesSetch_eq_nil_iff.mp hf⟩
  case h_2 hop =>
    simp only [frames, hop] at hf
    exact ⟨.inr hop, framesSetch4_eq_nil_iff.mp hf⟩
  case h_11 => cases h
  all_goals
    rename_i hop
    simp only [frames, hop] at hf
    exact absurd hf (List.cons_ne_nil _ _)

/-- An operation without frames completes at its accept, wherever the block is idle (R120, R171). -/
theorem exec_of_frames_eq_nil {i : Instr} {r : Req} {s : State} (h : encode i = .request r)
    (hf : frames r = []) (hb : s.busy = false) : exec i s = .next s.tick.toIdle := by
  rw [Laws.exec_of_encode_request h, Laws.accept_of_nil hb hf]

/-- With an invalid set-mode the request that encodes `SETCH` or `SETCH4` has no frame (R171). -/
theorem encode_of_invalid_setmode {i : Instr} {dev : Dev} {sm : BitVec 3}
    (hsm : setModeCmd sm = none)
    (h : (∃ a v, i = .setch dev sm a v) ∨ ∃ vA vB vC vD, i = .setch4 dev sm vA vB vC vD) :
    ∃ r, encode i = .request r ∧ frames r = [] := by
  obtain ⟨a, v, rfl⟩ | ⟨vA, vB, vC, vD, rfl⟩ := h
  · exact ⟨_, rfl, framesSetch_eq_nil_iff.mpr hsm⟩
  · exact ⟨_, rfl, framesSetch4_eq_nil_iff.mpr hsm⟩

/-- Settles O21: such an operation has no frame, so from an idle state it goes to `tick.toIdle`, which
is idle again; and the operations without frames are found among the decoder's ten clauses. -/
theorem invalidSetModeEmitsNothing : Obligations.InvalidSetModeEmitsNothing := by
  refine ⟨fun i s hready hi => ?silent, fun _ _ => invalid_setmode_of_frames_eq_nil⟩
  case silent =>
    obtain ⟨dev, sm, hsm, hi⟩ := hi
    obtain ⟨r, hr, hf⟩ := encode_of_invalid_setmode hsm hi
    have hb : s.busy = false := by simpa using hready
    exact ⟨s.tick.toIdle, s.tick.toIdle.tick.toIdle, exec_of_frames_eq_nil hr hf hb,
      exec_of_frames_eq_nil hr hf (State.toIdle_busy s.tick),
      rfl, rfl, rfl, rfl, rfl, rfl, rfl, rfl, rfl, rfl⟩

end Sys2Proof.Machine

/-! ### How the trace grows (R55, R49 d, R190) -/

namespace Sys2Proof.Machine

/-- Settles O29: of everything a step can do only the emission of the frame on offer touches the trace,
and it takes that frame off the pending ones; the reset edge, a held offer, an edge with nothing to
execute and an accept leave the trace as it was. -/
theorem traceGrowsOnlyByTheOffer : Obligations.TraceGrowsOnlyByTheOffer := by
  intro s t hstep
  obtain ⟨-, rfl⟩ | ⟨hrst, ⟨e, hoffer, -, hready, rfl⟩ | ⟨-, -, -, -, rfl⟩ | ⟨-, -, rfl⟩ |
    ⟨-, -, -, rfl⟩ | ⟨-, -, r, -, -, -, -, rfl⟩⟩ := Laws.step_next hstep
  · exact .inl (Laws.rstEdge_trace s)
  · exact .inr ⟨e, hoffer, hready, hrst, Laws.emitted_trace e s, Laws.emitted_pending hoffer⟩
  · exact .inl (State.tick_trace s)
  · exact .inl (Laws.pass_trace s)
  · exact .inl (State.toIdle_trace s.tick)
  · exact .inl (State.latch_trace r s.tick)

end Sys2Proof.Machine

/-! ### Decode and encode agree (R60, R65, R70, R79) -/

namespace Sys2Proof.Machine

theorem frameData_updateDac (a : BitVec 3) : (frameWord 0b001#3 a 0#16).extractLsb' 0 16 = 0#16 :=
  frameData_frameWord ..

/-- The frame of each frame command decodes to that command (R60, R65). -/
theorem decodeFrame_of_encode {i : Instr} {f : Frame} (h : encode i = .frame f) :
    decodeFrame f = .ok i := by
  cases i <;> simp only [encode, Encoded.frame.injEq, reduceCtorEq] at h <;> subst h
  case writeInput a d => simp [decodeFrame]
  case updateDac a => simp [decodeFrame, frameData_updateDac]
  case writeInputUpdateAll a d => simp [decodeFrame]
  case writeUpdate a d => simp [decodeFrame]
  case power pm m => rw [← powerWord_eq, ← encodeFrame_eq]; exact Laws.decodeFrame_power pm m
  case resetCmd b => rw [← boolWord_eq, ← encodeFrame_eq]; exact Laws.decodeFrame_resetCmd b
  case setLdac m => rw [← maskWord_eq, ← encodeFrame_eq]; exact Laws.decodeFrame_setLdac m
  case reference b => rw [← boolWord_eq, ← encodeFrame_eq]; exact Laws.decodeFrame_reference b

/-- Each request field that its operation reads is read back (R30, R70). -/
theorem decodeReq_of_encode {i : Instr} {r : Req} (h : encode i = .request r) :
    decodeReq r = .ok i := by
  cases i <;> cases h <;> rfl

theorem decode_encode (i : Instr) : decode (encode i) = .ok i := by
  cases h : encode i with
  | frame f => exact decodeFrame_of_encode h
  | request r => exact decodeReq_of_encode h

/-- Every command but 000, 001, 010, 011, 100, 101 and 110 is 111. -/
theorem eq_reference_of_ne {c : BitVec 3} (h0 : c ≠ 0b000#3) (h1 : c ≠ 0b001#3) (h2 : c ≠ 0b010#3)
    (h3 : c ≠ 0b011#3) (h4 : c ≠ 0b100#3) (h5 : c ≠ 0b101#3) (h6 : c ≠ 0b110#3) : c = 0b111#3 := by
  bv_omega

/-- Every bit of an accepted frame is either an operand's or one that the command fixes (R65). -/
theorem encode_of_decodeFrame {f : Frame} {i : Instr} (h : decodeFrame f = .ok i) :
    encode i = .frame f := by
  unfold decodeFrame at h
  split at h
  · cases h
  rename_i hz
  have hz : frameZero f = 0#2 := not_not.mp hz
  have hfields := frameWord_fields hz
  split at h
  case h_1 hc | h_3 hc | h_4 hc =>
    obtain rfl := Except.ok.inj h
    exact congrArg Encoded.frame (hc ▸ hfields)
  case h_2 hc =>
    split at h
    case isFalse => cases h
    case isTrue hd =>
      obtain rfl := Except.ok.inj h
      have hd : frameData f = 0#16 := hd
      exact congrArg Encoded.frame (hc ▸ hd ▸ hfields)
  case h_5 hc =>
    split at h
    case isFalse => cases h
    case isTrue hd =>
      obtain rfl := Except.ok.inj h
      rw [encode, ← powerWord_eq, ← encodeFrame_eq, Laws.encodeFrame_power hz hc hd]
  case h_6 hc =>
    split at h
    case isFalse => cases h
    case isTrue hd =>
      obtain rfl := Except.ok.inj h
      rw [encode, ← boolWord_eq, ← encodeFrame_eq, Laws.encodeFrame_bool hz hc hd]
  case h_7 hc =>
    split at h
    case isFalse => cases h
    case isTrue hd =>
      obtain rfl := Except.ok.inj h
      rw [encode, ← maskWord_eq, ← encodeFrame_eq, Laws.encodeFrame_ldac hz hc hd]
  case h_8 h0 h1 h2 h3 h4 h5 h6 =>
    split at h
    case isFalse => cases h
    case isTrue hd =>
      obtain rfl := Except.ok.inj h
      rw [encode, ← boolWord_eq, ← encodeFrame_eq,
        Laws.encodeFrame_bool hz (eq_reference_of_ne h0 h1 h2 h3 h4 h5 h6) hd]

/-- Settles O3: both formats are read back field by field, and an accepted frame is put together
again from its fields. -/
theorem decodeOfEncodeIsIdentity : Obligations.DecodeOfEncodeIsIdentity :=
  ⟨decode_encode, fun _ _ => encode_of_decodeFrame⟩

end Sys2Proof.Machine

/-! ### Literal frames of the control commands (R110 to R113) -/

namespace Sys2Proof.Machine

/-- Mode and mask stand at bits 5:4 and 3:0 of the frame of `POWER` (R110). -/
theorem powerFrame_eq : ∀ (pm : BitVec 2) (m : BitVec 4),
    encodeFrame 0b100#3 0b000#3 (powerWord pm m) =
      0x200000#24 ||| (pm.setWidth 24 <<< 4) ||| m.setWidth 24 := by decide

/-- The mask stands at bits 3:0 of the frame of `SET_LDAC` (R112). -/
theorem setLdacFrame_eq : ∀ m : BitVec 4,
    encodeFrame 0b110#3 0b000#3 (maskWord m) = 0x300000#24 ||| m.setWidth 24 := by decide

/-- The flag is bit 0 of the frame of `RESET_CMD` (R111). -/
theorem resetCmdFrame_eq (b : Bool) :
    encodeFrame 0b101#3 0b000#3 (boolWord b) = if b then 0x280001#24 else 0x280000#24 := by
  revert b; decide

/-- The flag is bit 0 of the frame of `REFERENCE` (R113). -/
theorem referenceFrame_eq (b : Bool) :
    encodeFrame 0b111#3 0b000#3 (boolWord b) = if b then 0x380001#24 else 0x380000#24 := by
  revert b; decide

end Sys2Proof.Machine

/-! ### The emittable frames (R115) -/

namespace Sys2Proof.Machine

/-- The set-mode codes are the codes of the commands they stand for (R69, R121). -/
theorem code_of_setModeCmd {sm : BitVec 3} {c : Cmd} (h : setModeCmd sm = some c) :
    Cmd.code c = sm := by
  cases c <;> revert sm <;> decide

/-- A write command is the command of the set-mode with its code (R69, R121). -/
theorem exists_setModeCmd {c : BitVec 3} (h : c = 0b000#3 ∨ c = 0b010#3 ∨ c = 0b011#3) :
    ∃ cmd, setModeCmd c = some cmd := by
  obtain rfl | rfl | rfl := h
  exacts [⟨_, rfl⟩, ⟨_, rfl⟩, ⟨_, rfl⟩]

section Emittable

variable {ok : BitVec 3 → Bool}

theorem emittableAt_write {c : Cmd} {sm a : BitVec 3} (hc : setModeCmd sm = some c)
    (ha : ok a = true) (d : Data) : EmittableAt ok (encodeFrame (Cmd.code c) a d) :=
  .inl ⟨_, a, d, Laws.setModeCmd_some hc, ha, encodeFrame_eq ..⟩

theorem emittableAt_update {a : BitVec 3} (ha : ok a = true) :
    EmittableAt ok (encodeFrame 0b001#3 a 0#16) :=
  .inr (.inl ⟨a, ha, encodeFrame_eq ..⟩)

theorem emittableAt_power (pm : BitVec 2) (m : BitVec 4) :
    EmittableAt ok (encodeFrame 0b100#3 0b000#3 (powerWord pm m)) :=
  .inr (.inr (.inl ⟨pm, m, powerFrame_eq pm m⟩))

theorem emittableAt_resetCmd (b : Bool) :
    EmittableAt ok (encodeFrame 0b101#3 0b000#3 (boolWord b)) := by
  cases b with
  | false => exact .inr (.inr (.inr (.inl (resetCmdFrame_eq false))))
  | true => exact .inr (.inr (.inr (.inr (.inl (resetCmdFrame_eq true)))))

theorem emittableAt_setLdac (m : BitVec 4) :
    EmittableAt ok (encodeFrame 0b110#3 0b000#3 (maskWord m)) :=
  .inr (.inr (.inr (.inr (.inr (.inl ⟨m, setLdacFrame_eq m⟩)))))

theorem emittableAt_reference (b : Bool) :
    EmittableAt ok (encodeFrame 0b111#3 0b000#3 (boolWord b)) := by
  cases b with
  | false => exact .inr (.inr (.inr (.inr (.inr (.inr (.inl (referenceFrame_eq false)))))))
  | true => exact .inr (.inr (.inr (.inr (.inr (.inr (.inr (referenceFrame_eq true)))))))

theorem emittableAt_of_mem_framesSetch {sm a : BitVec 3} {v : Data} {f : Frame} (ha : ok a = true)
    (h : f ∈ framesSetch sm a v) : EmittableAt ok f := by
  cases hc : setModeCmd sm with
  | none => simp [framesSetch_of_none hc] at h
  | some c =>
    rw [framesSetch_of_some hc, List.mem_singleton] at h
    exact h ▸ emittableAt_write hc ha v

theorem emittableAt_of_mem_framesSetch4 {sm : BitVec 3} {vA vB vC vD : Data} {f : Frame}
    (hok : ∀ a, addrDefined a = true → ok a = true) (h : f ∈ framesSetch4 sm vA vB vC vD) :
    EmittableAt ok f := by
  unfold framesSetch4 at h
  split at h
  · cases h
  next c hc =>
    simp only [List.mem_cons, List.not_mem_nil, or_false] at h
    obtain rfl | rfl | rfl | rfl := h
    · exact emittableAt_write hc (hok channelA rfl) vA
    · exact emittableAt_write hc (hok channelB rfl) vB
    · exact emittableAt_write hc (hok channelC rfl) vC
    · exact emittableAt_write hc (hok channelD rfl) vD

/-- A request whose address operand, if it reads one, is admitted has only frames of the table: the
other addresses are the four channels' and 000 (R115). -/
theorem emittableAt_of_mem_frames (hok : ∀ a, addrDefined a = true → ok a = true) {r : Req}
    {i : Instr} {f : Frame} (hd : decodeReq r = .ok i) (hi : i.addr?.all ok = true)
    (h : f ∈ frames r) : EmittableAt ok f := by
  unfold decodeReq at hd
  split at hd
  case h_11 => cases hd
  all_goals
    rename_i hop
    obtain rfl := Except.ok.inj hd
    simp only [frames, hop] at h
  case h_1 => exact emittableAt_of_mem_framesSetch hi h
  case h_2 => exact emittableAt_of_mem_framesSetch4 hok h
  case h_3 => exact List.mem_singleton.mp h ▸ emittableAt_update hi
  case h_4 => exact List.mem_singleton.mp h ▸ emittableAt_power ..
  case h_5 => exact List.mem_singleton.mp h ▸ emittableAt_power ..
  case h_6 =>
    simp only [framesPwr4, List.mem_cons, List.not_mem_nil, or_false] at h
    obtain rfl | rfl | rfl | rfl := h <;> exact emittableAt_power ..
  case h_7 => exact List.mem_singleton.mp h ▸ emittableAt_resetCmd _
  case h_8 => exact List.mem_singleton.mp h ▸ emittableAt_setLdac _
  case h_9 => exact List.mem_singleton.mp h ▸ emittableAt_setLdac _
  case h_10 => exact List.mem_singleton.mp h ▸ emittableAt_reference _

/-- Every frame of the table is the frame of the operation of R73 for its command. -/
theorem exists_request_of_emittableAt {f : Frame} (h : EmittableAt ok f) :
    ∃ r i, decodeReq r = .ok i ∧ i.addr?.all ok = true ∧ f ∈ frames r := by
  obtain ⟨c, a, d, hc, ha, rfl⟩ | ⟨a, ha, rfl⟩ | ⟨pm, m, rfl⟩ | rfl | rfl | ⟨m, rfl⟩ | rfl | rfl := h
  · obtain ⟨cmd, hcmd⟩ := exists_setModeCmd hc
    refine ⟨{ Req.naming 0x1#4 0 with setmode := c, addr := a, value := d }, _, rfl, ha, ?_⟩
    show _ ∈ framesSetch c a d
    rw [framesSetch_of_some hcmd, code_of_setModeCmd hcmd, encodeFrame_eq]
    exact List.mem_singleton_self _
  · refine ⟨{ Req.naming 0x3#4 0 with addr := a }, _, rfl, ha, ?_⟩
    exact List.mem_singleton.mpr (encodeFrame_eq ..).symm
  · refine ⟨{ Req.naming 0x4#4 0 with pmode := pm, mask := m }, _, rfl, rfl, ?_⟩
    exact List.mem_singleton.mpr (powerFrame_eq pm m).symm
  · exact ⟨{ Req.naming 0x7#4 0 with flag := false }, _, rfl, rfl, by decide⟩
  · exact ⟨{ Req.naming 0x7#4 0 with flag := true }, _, rfl, rfl, by decide⟩
  · refine ⟨{ Req.naming 0x8#4 0 with mask := m }, _, rfl, rfl, ?_⟩
    exact List.mem_singleton.mpr (setLdacFrame_eq m).symm
  · exact ⟨{ Req.naming 0xA#4 0 with flag := false }, _, rfl, rfl, by decide⟩
  · exact ⟨{ Req.naming 0xA#4 0 with flag := true }, _, rfl, rfl, by decide⟩

end Emittable

/-- A request with a frame names an operation (R72). -/
theorem exists_decodeReq_of_mem_frames {r : Req} {f : Frame} (h : f ∈ frames r) :
    ∃ i, decodeReq r = .ok i := by
  cases hd : decodeReq r with
  | ok i => exact ⟨i, rfl⟩
  | error e => simp [(Laws.frames_of_decodeReq_error hd).1] at h

/-- Every address is admitted by the table without a restriction. -/
theorem addr?_all_true (i : Instr) : i.addr?.all (fun _ => true) = true := by
  cases i.addr? <;> rfl

theorem emittable_of_mem_frames {r : Req} {f : Frame} (h : f ∈ frames r) : Emittable f := by
  obtain ⟨i, hi⟩ := exists_decodeReq_of_mem_frames h
  exact emittableAt_of_mem_frames (fun _ _ => rfl) hi (addr?_all_true i) h

/-- Settles O34: a request's frames are in the table, and a frame of the table is one of its
command's operation; once with every address admitted, once with the defined ones. -/
theorem emittableFramesExactly : Obligations.EmittableFramesExactly := by
  refine fun f => ⟨⟨fun ⟨_, h⟩ => emittable_of_mem_frames h, fun h => ?_⟩,
    ⟨fun ⟨_, _, hd, hwf, h⟩ => emittableAt_of_mem_frames (fun _ => id) hd hwf h,
      exists_request_of_emittableAt⟩⟩
  obtain ⟨r, -, -, -, hf⟩ := exists_request_of_emittableAt h
  exact ⟨r, hf⟩

end Sys2Proof.Machine

/-! ### What a step does to the sequencer and to the frames sent (R28, R29, R55, R190) -/

namespace Sys2Proof.Machine

@[simp] theorem rstEdge_busy (s : State) : s.rstEdge.busy = false := by
  unfold State.rstEdge; split <;> rfl

@[simp] theorem rstEdge_fidx (s : State) : s.rstEdge.fidx = 0#2 := by
  unfold State.rstEdge; split <;> rfl

theorem pass_of_busy {s : State} (h : s.busy = true) : s.pass = s.tick.toIdle := by
  simp [State.pass, h]

theorem pass_of_idle {s : State} (h : s.busy = false) : s.pass = s.tick := by
  simp [State.pass, h]

@[simp] theorem pass_busy (s : State) : s.pass.busy = false := by
  cases h : s.busy with
  | true => rw [pass_of_busy h, State.toIdle_busy]
  | false => rw [pass_of_idle h, State.tick_busy, h]

/-- The request stays latched while its frames are emitted (R28). -/
theorem emitted_lat_of_busy {e : Emission} {s : State} (h : (s.emitted e).busy = true) :
    (s.emitted e).lat = s.lat := by
  by_cases hm : s.fidx.toNat + 1 < (frames s.lat).length
  · rw [Laws.emitted_of_more hm]; rfl
  · rw [Laws.emitted_of_last hm, State.toIdle_busy] at h; cases h

/-- The frame on offer is one of the request in progress, for that request's device (R55). -/
theorem mem_emissions_of_offer {s : State} {e : Emission} (h : s.offer = some e) :
    s.busy = true ∧ e ∈ emissions s.lat :=
  ⟨(State.offer_eq_some h).1, List.mem_of_getElem? (State.offer_eq_some h).2⟩

/-- What is sent, or cut short, at an edge is what was on offer (R49 d, R190). -/
theorem mem_sent_of_step {s t : State} {e : Emission} (h : step s = .next t)
    (he : e ∈ t.trace ++ t.cut) : e ∈ s.trace ++ s.cut ∨ s.offer = some e := by
  obtain ⟨-, rfl⟩ | ⟨-, ⟨x, ho, -, -, rfl⟩ | ⟨-, -, -, -, rfl⟩ | ⟨-, -, rfl⟩ | ⟨-, -, -, rfl⟩ |
    ⟨-, -, r, -, -, -, -, rfl⟩⟩ := Laws.step_next h
  · rw [Laws.rstEdge_trace, Laws.rstEdge_cut, ← List.append_assoc, List.mem_append,
      Option.mem_toList] at he
    exact he
  · simp only [Laws.emitted_trace, Laws.emitted_cut, List.mem_append, List.mem_singleton] at he ⊢
    obtain (he | rfl) | he := he
    exacts [.inl (.inl he), .inr ho, .inl (.inr he)]
  · exact .inl he
  · rw [Laws.pass_trace, Laws.pass_cut] at he; exact .inl he
  · exact .inl he
  · exact .inl he

/-- A block that is busy after an edge was busy with the same request, or has accepted one (R28,
R29). -/
theorem busy_of_step {s t : State} (h : step s = .next t) (hb : t.busy = true) :
    (s.busy = true ∧ t.lat = s.lat) ∨
    ∃ q, s.accepts = some q ∧ decodeReq t.lat = decodeReq q ∧ t.lat.dev = q.dev := by
  obtain ⟨-, rfl⟩ | ⟨hr, ⟨e, ho, -, -, rfl⟩ | ⟨e, ho, -, -, rfl⟩ | ⟨-, -, rfl⟩ | ⟨-, -, -, rfl⟩ |
    ⟨hidle, hv, r, -, hdev, hdec, -, rfl⟩⟩ := Laws.step_next h
  · rw [rstEdge_busy] at hb; cases hb
  · exact .inl ⟨(State.offer_eq_some ho).1, emitted_lat_of_busy hb⟩
  · exact .inl ⟨hb, rfl⟩
  · rw [pass_busy] at hb; cases hb
  · cases hb
  · exact .inr ⟨s.now.req, by simp [State.accepts, hr, hidle, hv], hdec, hdev⟩

/-- An accepted request stood on the port of an idle block, at a listed edge without `rst`: the
edges after the list present none (R29). -/
theorem mem_edges_of_accepts {s : State} {q : Req} (h : s.accepts = some q) :
    s.busy = false ∧ s.now ∈ s.edges ∧ s.now.reqValid = true ∧ q = s.now.req := by
  unfold State.accepts at h
  split at h
  case isFalse => cases h
  case isTrue hc =>
    simp only [State.reqReady_eq, Bool.and_eq_true, Bool.not_eq_true'] at hc
    obtain ⟨⟨-, hidle⟩, hv⟩ := hc
    refine ⟨hidle, ?_, hv, (Option.some.inj h).symm⟩
    cases he : s.edges with
    | nil => rw [State.now_nil he] at hv; cases hv
    | cons x xs => rw [State.now_cons he]; exact List.mem_cons_self

end Sys2Proof.Machine

/-! ### The invariants are kept (R28, R22, R115, R63, R7) -/

namespace Sys2Proof.Machine

theorem sequencerOk_of_idle {s : State} (hb : s.busy = false) (hf : s.fidx = 0#2) :
    SequencerOk s :=
  ⟨fun h => absurd (hb.symm.trans h) Bool.false_ne_true, fun _ => hf⟩

theorem sequencerOk_of_busy {s : State} (hb : s.busy = true)
    (hf : s.fidx.toNat < (frames s.lat).length) : SequencerOk s :=
  ⟨fun _ => hf, fun h => absurd (h.symm.trans hb) Bool.false_ne_true⟩

theorem sequencerOk_emitted {e : Emission} {s : State} (hb : s.busy = true) :
    SequencerOk (s.emitted e) := by
  by_cases hm : s.fidx.toNat + 1 < (frames s.lat).length
  · rw [Laws.emitted_of_more hm]
    refine sequencerOk_of_busy hb ?_
    show (s.fidx + 1#2).toNat < (frames s.lat).length
    rwa [Laws.fidx_succ_toNat hm]
  · rw [Laws.emitted_of_last hm]
    exact sequencerOk_of_idle rfl rfl

theorem step_keeps_sequencerOk {s t : State} (hs : SequencerOk s) (h : step s = .next t) :
    SequencerOk t := by
  obtain ⟨-, rfl⟩ | ⟨-, ⟨e, ho, -, -, rfl⟩ | ⟨-, -, -, -, rfl⟩ | ⟨-, -, rfl⟩ | ⟨-, -, -, rfl⟩ |
    ⟨-, -, r, -, -, -, hne, rfl⟩⟩ := Laws.step_next h
  · exact sequencerOk_of_idle (rstEdge_busy s) (rstEdge_fidx s)
  · exact sequencerOk_emitted (State.offer_eq_some ho).1
  · exact hs
  · cases hb : s.busy with
    | true => rw [pass_of_busy hb]; exact sequencerOk_of_idle rfl rfl
    | false => rw [pass_of_idle hb]; exact hs
  · exact sequencerOk_of_idle rfl rfl
  · exact sequencerOk_of_busy rfl (List.length_pos_of_ne_nil hne)

/-- Whatever is on offer is a frame of the request in progress, so in the table (R115). -/
theorem step_keeps_traceOk {s t : State} (hs : TraceOk s) (h : step s = .next t) : TraceOk t := by
  intro e he
  obtain hold | hoffer := mem_sent_of_step h he
  · exact hs e hold
  · exact emittable_of_mem_frames (frame_of_mem_emissions (mem_emissions_of_offer hoffer).2)

/-- Settles O36: the sequencer's part by the cases of a step, the trace's because only the frame
on offer is ever sent or cut. -/
theorem stepKeepsTheInvariant : Obligations.StepKeepsTheInvariant :=
  fun _ _ ⟨hseq, htrace⟩ h => ⟨step_keeps_sequencerOk hseq h, step_keeps_traceOk htrace h⟩

/-- The device a request's operation is for is the request's (R30, R41). -/
theorem dev?_of_decodeReq {r : Req} {i : Instr} (h : decodeReq r = .ok i) :
    i.dev? = some r.dev := by
  unfold decodeReq at h
  split at h
  case h_11 => cases h
  all_goals
    obtain rfl := Except.ok.inj h
    rfl

theorem devFits_of_fits {w : Nat} {r : Req} {i : Instr} (h : decodeReq r = .ok i)
    (hfits : i.fits w = true) : devFits w r.dev = true := by
  rwa [Instr.fits, dev?_of_decodeReq h] at hfits

/-- Settles O37: no step lengthens the input; a request in progress afterwards was in progress
before or has just been accepted from the input; a frame sent is one of the request in progress.
-/
theorem stepKeepsTheDomain : Obligations.StepKeepsTheDomain := by
  rintro w s t ⟨hinput, hlat, hsent⟩ h
  refine ⟨?input, ?lat, ?sent⟩
  case input =>
    intro x hx
    rw [Laws.step_next_edges h] at hx
    exact hinput x (List.mem_of_mem_tail hx)
  case lat =>
    intro hb
    obtain ⟨hbusy, heq⟩ | ⟨q, hq, hdec, -⟩ := busy_of_step h hb
    · exact heq ▸ hlat hbusy
    · obtain ⟨-, hmem, hv, rfl⟩ := mem_edges_of_accepts hq
      exact hdec ▸ hinput s.now hmem hv
  case sent =>
    intro e he
    obtain hold | hoffer := mem_sent_of_step h he
    · exact hsent e hold
    · obtain ⟨hbusy, hmem⟩ := mem_emissions_of_offer hoffer
      obtain ⟨i, hi, hwf, hfits⟩ := hlat hbusy
      exact ⟨emittableAt_of_mem_frames (fun _ => id) hi hwf (frame_of_mem_emissions hmem),
        dev_of_mem_emissions hmem ▸ devFits_of_fits hi hfits⟩

/-- Settles O35: the reset state is idle with nothing sent and nothing to come. -/
theorem resetStateMeetsTheInvariants : Obligations.ResetStateMeetsTheInvariants := by
  have hsent : ∀ e, e ∉ State.reset.trace ++ State.reset.cut := fun _ => List.not_mem_nil
  have hinput : ∀ e, e ∉ State.reset.edges := fun _ => List.not_mem_nil
  refine ⟨⟨sequencerOk_of_idle rfl rfl, fun e he => absurd he (hsent e)⟩,
    fun w => ⟨fun e he => absurd he (hinput e), fun h => absurd h Bool.false_ne_true,
      fun e he => absurd he (hsent e)⟩,
    rfl, rfl, rfl, rfl, rfl⟩

end Sys2Proof.Machine

/-! ### Pending frames and accepted requests from step to step (R28, R29, R49) -/

namespace Sys2Proof.Machine

/-- The frame on offer is the first pending one (R28, R55). -/
theorem offer_eq_head?_pending (s : State) : s.offer = s.pending.head? := by
  cases hb : s.busy with
  | true => rw [State.offer_of_busy hb, State.pending_of_busy hb, List.head?_drop]
  | false => rw [State.offer_of_idle hb, State.pending_of_idle hb, List.head?_nil]

theorem pending_of_no_offer {s : State} (h : s.offer = none) : s.pending = [] := by
  rwa [offer_eq_head?_pending, List.head?_eq_none_iff] at h

@[simp] theorem rstEdge_pending (s : State) : s.rstEdge.pending = [] :=
  State.pending_of_idle (rstEdge_busy s)

@[simp] theorem pass_pending (s : State) : s.pass.pending = [] :=
  State.pending_of_idle (pass_busy s)

/-- After an `Emit` the block is busy exactly while a frame is left (R120). -/
theorem emitted_busy {e : Emission} {s : State} (h : s.offer = some e) :
    (s.emitted e).busy = !(s.emitted e).pending.isEmpty := by
  have hb := (State.offer_eq_some h).1
  by_cases hm : s.fidx.toNat + 1 < (frames s.lat).length
  · have hbusy : (s.emitted e).busy = true := by rw [Laws.emitted_of_more hm]; exact hb
    have hfidx := (sequencerOk_emitted (e := e) hb).1 hbusy
    have hne : (s.emitted e).pending ≠ [] := by
      rw [State.pending_of_busy hbusy, Ne, List.drop_eq_nil_iff, emissions_length]
      omega
    rw [hbusy, List.isEmpty_eq_false_iff.mpr hne, Bool.not_false]
  · rw [Laws.emitted_of_last hm]; rfl

theorem accepts_of_busy {s : State} (h : s.busy = true) : s.accepts = none := by
  simp [State.accepts, h]

theorem accepts_of_no_request {s : State} (h : s.now.reqValid = false) : s.accepts = none := by
  simp [State.accepts, h]

theorem accepts_of_request {s : State} (hr : s.now.rst = false) (hb : s.busy = false)
    (hv : s.now.reqValid = true) : s.accepts = some s.now.req := by
  simp [State.accepts, hr, hb, hv]

/-- A transport that has finished takes the frame on offer (R55). -/
theorem step_of_ready {s : State} {e : Emission} (hr : s.now.rst = false)
    (ha : s.now.abort = false) (ho : s.offer = some e) (hf : s.now.frmReady = true) :
    step s = .next (s.emitted e) := by
  rw [Laws.step_of_offer hr ha ho, Laws.emitOffered_of_ready ho hf]

/-- A transport that has not finished lets the edge pass (R55). -/
theorem step_of_held {s : State} {e : Emission} (hr : s.now.rst = false)
    (ha : s.now.abort = false) (ho : s.offer = some e) (hf : s.now.frmReady = false) :
    step s = .next s.tick := by
  rw [Laws.step_of_offer hr ha ho, Laws.emitOffered_of_not_ready hf]

/-- A run that answers a next state begins with a step that does. -/
theorem exists_step_of_run {n : Nat} {s t : State}
    (h : Host.Core.run Sys2Proof.core (n + 1) s = .next t) :
    ∃ u, step s = .next u ∧ Host.Core.run Sys2Proof.core n u = .next t := by
  cases hs : step s with
  | next u => exact ⟨u, rfl, Laws.run_of_next hs n ▸ h⟩
  | fault x => rw [Laws.run_of_fault hs] at h; cases h
  | refused r =>
    have hs' : Sys2Proof.core.step s = .refused r := hs
    simp only [Host.Core.run, hs', reduceCtorEq] at h

/-- The edge of the next step is the first listed one, if the list is not used up. -/
theorem now_mem_take {n : Nat} {s : State} (h : s.edges ≠ []) : s.now ∈ s.edges.take (n + 1) := by
  obtain ⟨x, xs, he⟩ := List.exists_cons_of_ne_nil h
  rw [State.now_cons he, he, List.take_succ_cons]
  exact List.mem_cons_self

/-- The first `n` edges after the next one are among the first `n + 1`. -/
theorem mem_take_of_mem_take_tail {α : Type} {n : Nat} {l : List α} {x : α}
    (h : x ∈ l.tail.take n) : x ∈ l.take (n + 1) := by
  rw [← Nat.add_sub_cancel (n := n) (m := 1), ← List.tail_take_eq_take_tail] at h
  exact List.mem_of_mem_tail h

/-- At a stretch without `rst` the next edge has none, since the edges after the list have none. -/
theorem now_rst_of_take {n : Nat} {s : State} (h : ∀ e ∈ s.edges.take (n + 1), e.rst = false) :
    s.now.rst = false := by
  by_cases he : s.edges = []
  · rw [State.now_nil he]; rfl
  · exact h _ (now_mem_take he)

end Sys2Proof.Machine

/-! ### The trace is the accepted requests in order (R49, R120) -/

namespace Sys2Proof.Machine

@[simp] theorem traceOf_nil : traceOf [] = [] := rfl

@[simp] theorem traceOf_singleton (r : Req) : traceOf [r] = emissions r := List.flatMap_singleton ..

theorem traceOf_append (rs rs' : List Req) : traceOf (rs ++ rs') = traceOf rs ++ traceOf rs' :=
  List.flatMap_append

/-- Conservation at one edge without `rst`: an `Emit` moves a frame from the pending ones to the
trace, an accept adds its request's frames to the pending ones, nothing else changes either (R49).
-/
theorem sent_and_pending_of_step {s t : State} (hr : s.now.rst = false) (h : step s = .next t) :
    t.trace ++ t.pending = s.trace ++ s.pending ++ traceOf s.accepts.toList := by
  obtain ⟨hr', -⟩ | ⟨-, ⟨e, ho, -, -, rfl⟩ | ⟨e, ho, -, -, rfl⟩ | ⟨ho, hv, rfl⟩ | ⟨hb, hv, hf, rfl⟩ |
    ⟨hb, hv, r, hf, hdev, -, -, rfl⟩⟩ := Laws.step_next h
  · rw [hr] at hr'; cases hr'
  · rw [accepts_of_busy (State.offer_eq_some ho).1, Laws.emitted_pending ho, Laws.emitted_trace]
    simp
  · rw [accepts_of_busy (State.offer_eq_some ho).1]
    simp
  · have hacc : s.accepts = none := hv.elim accepts_of_busy accepts_of_no_request
    simp [hacc, pending_of_no_offer ho]
  · have hnone : emissions s.now.req = [] := by simp [emissions, hf]
    simp [accepts_of_request hr hb hv, hnone, hb]
  · simp [accepts_of_request hr hb hv, hb, emissions_congr hf hdev]

/-- Settles O38: conservation at each edge, added up over the run. -/
theorem traceIsTheAcceptedRequestsInOrder : Obligations.TraceIsTheAcceptedRequestsInOrder := by
  intro n
  induction n with
  | zero =>
    intro s t _ h
    obtain rfl := Host.Outcome.next.inj h
    simp [acceptedIn]
  | succ n ih =>
    intro s t hrst h
    obtain ⟨u, hu, hrun⟩ := exists_step_of_run h
    have hrst' : ∀ e ∈ u.edges.take n, e.rst = false := fun e he =>
      hrst e (mem_take_of_mem_take_tail (Laws.step_next_edges hu ▸ he))
    rw [ih u t hrst' hrun, sent_and_pending_of_step (now_rst_of_take hrst) hu,
      Laws.acceptedIn_of_next hu, traceOf_append, List.append_assoc]

end Sys2Proof.Machine

/-! ### Nothing is remembered between operations (R20) -/

namespace Sys2Proof.Machine

/-- Two states with the same input to come, both busy or both idle, and the same frames pending.
What else they hold (latches, trace, past) is their own. -/
structure SameOutlook (s s' : State) : Prop where
  busy    : s.busy = s'.busy
  pending : s.pending = s'.pending
  edges   : s.edges = s'.edges

namespace SameOutlook

theorem of_idle {s s' : State} (hb : s.busy = false) (hb' : s'.busy = false)
    (he : s.edges = s'.edges) : SameOutlook s s' :=
  ⟨hb.trans hb'.symm, by rw [State.pending_of_idle hb, State.pending_of_idle hb'], he⟩

variable {s s' : State}

theorem now (h : SameOutlook s s') : s.now = s'.now := by rw [State.now, State.now, h.edges]

theorem offer (h : SameOutlook s s') : s.offer = s'.offer := by
  rw [offer_eq_head?_pending, offer_eq_head?_pending, h.pending]

theorem tick (h : SameOutlook s s') : SameOutlook s.tick s'.tick :=
  ⟨h.busy, h.pending, congrArg List.tail h.edges⟩

theorem emitted {e : Emission} (h : SameOutlook s s') (ho : s.offer = some e) :
    SameOutlook (s.emitted e) (s'.emitted e) := by
  have ho' : s'.offer = some e := h.offer ▸ ho
  have hp : (s.emitted e).pending = (s'.emitted e).pending := by
    have hcons := h.pending
    rw [Laws.emitted_pending ho, Laws.emitted_pending ho'] at hcons
    exact (List.cons.inj hcons).2
  refine ⟨?_, hp, ?_⟩
  · rw [emitted_busy ho, emitted_busy ho', hp]
  · rw [Laws.emitted_edges, Laws.emitted_edges, h.edges]

theorem latch {r r' : Req} (h : SameOutlook s s') (hr : emissions r = emissions r') :
    SameOutlook (s.tick.latch r) (s'.tick.latch r') :=
  ⟨rfl, by rw [State.latch_pending, State.latch_pending, hr], h.tick.edges⟩

/-- A step sends the same from two states with the same outlook, which have the same outlook
again. -/
theorem step {t : State} (h : SameOutlook s s') (hs : step s = .next t) :
    ∃ t' sent, Machine.step s' = .next t' ∧ SameOutlook t t' ∧
      t.trace = s.trace ++ sent ∧ t'.trace = s'.trace ++ sent := by
  have hnow := h.now
  obtain ⟨hr, rfl⟩ | ⟨hr, ⟨e, ho, ha, hf, rfl⟩ | ⟨e, ho, ha, hf, rfl⟩ | ⟨ho, hv, rfl⟩ |
    ⟨hb, hv, hnil, rfl⟩ | ⟨hb, hv, r, hfr, hdev, -, hne, rfl⟩⟩ := Laws.step_next hs
  all_goals rw [hnow] at hr
  · exact ⟨_, [], Laws.step_of_rst hr,
      .of_idle (rstEdge_busy s) (rstEdge_busy s') (by simp [h.edges]), by simp, by simp⟩
  · rw [hnow] at ha hf
    exact ⟨_, [e], step_of_ready hr ha (h.offer ▸ ho) hf, h.emitted ho, Laws.emitted_trace e s,
      Laws.emitted_trace e s'⟩
  · rw [hnow] at ha hf
    exact ⟨_, [], step_of_held hr ha (h.offer ▸ ho) hf, h.tick, by simp, by simp⟩
  · rw [h.offer] at ho
    rw [h.busy, hnow] at hv
    exact ⟨_, [], Laws.step_of_nothing hr ho hv,
      .of_idle (pass_busy s) (pass_busy s') (by simp [h.edges]), by simp, by simp⟩
  · rw [h.busy] at hb
    rw [hnow] at hv hnil
    obtain ⟨r, hfr, -, -, hstep⟩ := Laws.step_of_request hr hb hv
    exact ⟨_, [], hstep.trans (Laws.accept_of_nil hb (hfr.trans hnil)),
      .of_idle rfl rfl h.tick.edges, by simp, by simp⟩
  · rw [h.busy] at hb
    rw [hnow] at hv hfr hdev
    obtain ⟨r', hfr', hdev', -, hstep⟩ := Laws.step_of_request hr hb hv
    have hsame : frames r = frames r' := hfr.trans hfr'.symm
    exact ⟨_, [], hstep.trans (Laws.accept_of_ne_nil hb (hsame ▸ hne)),
      h.latch (emissions_congr hsame (hdev.trans hdev'.symm)), by simp, by simp⟩

/-- So does a run of any length. -/
theorem run {n : Nat} {t : State} (h : SameOutlook s s')
    (hrun : Host.Core.run Sys2Proof.core n s = .next t) :
    ∃ t' sent, Host.Core.run Sys2Proof.core n s' = .next t' ∧ SameOutlook t t' ∧
      t.trace = s.trace ++ sent ∧ t'.trace = s'.trace ++ sent := by
  induction n generalizing s s' with
  | zero =>
    obtain rfl := Host.Outcome.next.inj hrun
    exact ⟨s', [], rfl, h, (List.append_nil _).symm, (List.append_nil _).symm⟩
  | succ n ih =>
    obtain ⟨u, hu, hrest⟩ := exists_step_of_run hrun
    obtain ⟨u', sent, hu', hout, hsent, hsent'⟩ := h.step hu
    obtain ⟨t', more, hrun', hout', hmore, hmore'⟩ := ih hout hrest
    refine ⟨t', sent ++ more, (Laws.run_of_next hu' n).trans hrun', hout', ?_, ?_⟩
    · rw [hmore, hsent, List.append_assoc]
    · rw [hmore', hsent', List.append_assoc]

end SameOutlook

/-- Settles O39: two idle states with the same input have the same outlook, and a run keeps it. -/
theorem nothingRememberedBetweenOperations : Obligations.NothingRememberedBetweenOperations := by
  intro n s s' t hb hb' he hrun
  obtain ⟨t', sent, hrun', hout, hsent, hsent'⟩ := (SameOutlook.of_idle hb hb' he).run hrun
  exact ⟨t', sent, hrun', hsent, hsent', hout.pending, congrArg not hout.busy⟩

end Sys2Proof.Machine

/-! ### Operations complete; an offer is held (R198, R172, R55) -/

namespace Sys2Proof.Machine

/-- While busy the sequencer's invariant means that a frame is pending. -/
theorem pending_ne_nil {s : State} (h : SequencerOk s) (hb : s.busy = true) : s.pending ≠ [] := by
  have hfidx := h.1 hb
  rw [State.pending_of_busy hb, Ne, List.drop_eq_nil_iff, emissions_length]
  omega

/-- A request has at most four frames (R6, R126). -/
theorem pending_length_le (s : State) : s.pending.length ≤ 4 := by
  unfold State.pending
  split
  · have := frames_length_le s.lat
    rw [List.length_drop, emissions_length]
    omega
  · exact Nat.zero_le 4

/-- The premises hold of the coming edge, listed or not, and of the edges after it (R172, R190). -/
theorem TransportReliable.now {s : State} (h : TransportReliable s) : s.now.abort = false := by
  cases he : s.edges with
  | nil => rw [State.now_nil he]; rfl
  | cons x xs => rw [State.now_cons he]; exact h x (he ▸ List.mem_cons_self)

theorem TransportReliable.tail {s t : State} (h : TransportReliable s)
    (ht : t.edges = s.edges.tail) : TransportReliable t :=
  fun x hx => h x (List.mem_of_mem_tail (ht ▸ hx))

theorem NoReset.now {s : State} (h : NoReset s) : s.now.rst = false := by
  cases he : s.edges with
  | nil => rw [State.now_nil he]; rfl
  | cons x xs => rw [State.now_cons he]; exact h x (he ▸ List.mem_cons_self)

theorem NoReset.tail {s t : State} (h : NoReset s) (ht : t.edges = s.edges.tail) : NoReset t :=
  fun x hx => h x (List.mem_of_mem_tail (ht ▸ hx))

/-- Each step of an operation uses up an edge at which the transport waits or a pending frame, so it
completes within the listed edges and one more for each frame (R198). -/
theorem exists_run_to_completion {es : List Edge} : ∀ {s : State}, s.edges = es →
    TransportReliable s → NoReset s → s.pending ≠ [] →
    ∃ n t, n ≤ es.length + s.pending.length ∧ Host.Core.run Sys2Proof.core n s = .next t ∧
      t.busy = false ∧ t.trace = s.trace ++ s.pending := by
  induction es with
  | nil =>
    intro s he _ _ hp
    obtain ⟨p, ps, hp⟩ := List.exists_cons_of_ne_nil hp
    have hu : Undisturbed (ps.length + 1) s.edges := by intro x hx; simp [he] at hx
    exact ⟨ps.length + 1, _, by simp [hp], Laws.run_pending p ps s hp hu, rfl, by rw [hp]⟩
  | cons x es ih =>
    intro s he hrel hnr hp
    obtain ⟨p, ps, hps⟩ := List.exists_cons_of_ne_nil hp
    obtain ⟨-, ho⟩ := Laws.offer_of_pending hps
    have htail : s.edges.tail = es := by rw [he, List.tail_cons]
    cases hf : s.now.frmReady with
    | true =>
      have hstep := step_of_ready hnr.now hrel.now ho hf
      have hedges := Laws.emitted_edges p s
      have hrest := Laws.emitted_pending ho
      by_cases hlast : (s.emitted p).pending = []
      · refine ⟨1, s.emitted p, ?_, Laws.run_of_next hstep 0, ?_, ?_⟩
        · rw [List.length_cons]; omega
        · rw [emitted_busy ho, hlast]; rfl
        · rw [Laws.emitted_trace, hrest, hlast]
      · obtain ⟨n, t, hn, hrun, hidle, htrace⟩ :=
          ih (hedges.trans htail) (hrel.tail hedges) (hnr.tail hedges) hlast
        refine ⟨n + 1, t, ?_, (Laws.run_of_next hstep n).trans hrun, hidle, ?_⟩
        · rw [hrest, List.length_cons, List.length_cons]; omega
        · rw [htrace, Laws.emitted_trace, hrest, List.append_assoc, List.singleton_append]
    | false =>
      have hstep := step_of_held hnr.now hrel.now ho hf
      obtain ⟨n, t, hn, hrun, hidle, htrace⟩ :=
        ih (s := s.tick) htail (hrel.tail rfl) (hnr.tail rfl) hp
      rw [State.tick_pending] at hn
      refine ⟨n + 1, t, ?_, (Laws.run_of_next hstep n).trans hrun, hidle, htrace⟩
      rw [List.length_cons]; omega

theorem Undisturbed.mono {m n : Nat} {es : List Edge} (hmn : m ≤ n) (h : Undisturbed n es) :
    Undisturbed m es :=
  fun x hx => h x (List.take_subset_take_left es hmn hx)

/-- Settles O41: at most four frames are pending; the first clause counts the edges at which the
transport waits, the second is a run at undisturbed edges. -/
theorem operationsComplete : Obligations.OperationsComplete := by
  constructor
  · intro s hseq hrel hnr hb
    obtain ⟨n, t, hn, hrun, hidle, htrace⟩ :=
      exists_run_to_completion rfl hrel hnr (pending_ne_nil hseq hb)
    exact ⟨n, t, hn.trans (Nat.add_le_add_left (pending_length_le s) _), hrun, congrArg not hidle,
      htrace⟩
  · intro s hseq hb hu
    obtain ⟨p, ps, hp⟩ := List.exists_cons_of_ne_nil (pending_ne_nil hseq hb)
    have hlen : ps.length + 1 ≤ 4 := by simpa [hp] using pending_length_le s
    exact ⟨ps.length + 1, _, hlen, Laws.run_pending p ps s hp (hu.mono hlen), rfl, by rw [hp]⟩

/-- At edges at which the transport has not finished, only the input moves on (R55). -/
theorem run_held {n : Nat} {s : State} {e : Emission} (ho : s.offer = some e)
    (hn : n ≤ s.edges.length)
    (hu : ∀ x ∈ s.edges.take n, x.rst = false ∧ x.abort = false ∧ x.frmReady = false) :
    Host.Core.run Sys2Proof.core n s = .next { s with edges := s.edges.drop n } := by
  induction n generalizing s with
  | zero => rfl
  | succ n ih =>
    have hne : s.edges ≠ [] := List.ne_nil_of_length_pos (by omega)
    obtain ⟨hr, ha, hf⟩ := hu _ (now_mem_take hne)
    rw [Laws.run_of_next (step_of_held hr ha ho hf), ih (s := s.tick) ho]
    · simp [State.tick]
    · rw [State.tick_edges, List.length_tail]; omega
    · exact fun x hx => hu x (mem_take_of_mem_take_tail hx)

/-- Settles O30: the state after `n` held edges differs in its input alone, which no output reads.
-/
theorem offerHeldWhileNotReady : Obligations.OfferHeldWhileNotReady := by
  intro n s e ho hn hu
  refine ⟨_, run_held ho hn hu, ho, rfl, rfl, ?_⟩
  rw [State.reqReady_eq]
  exact congrArg not (State.offer_eq_some ho).1

end Sys2Proof.Machine

/-! ### Other devices (R177, R46, R56) -/

namespace Sys2Proof.Machine

theorem deviceTrace_append (d : Dev) (es es' : List Emission) :
    deviceTrace d (es ++ es') = deviceTrace d es ++ deviceTrace d es' := List.filter_append ..

theorem deviceTrace_singleton_of_ne {d : Dev} {e : Emission} (h : e.dev ≠ d) :
    deviceTrace d [e] = [] := by simp [deviceTrace, h]

/-- A step sends at most the frame on offer, which goes to the device of the request in progress. -/
theorem deviceTrace_of_step {d : Dev} {s t : State} (hd : s.busy = true → s.lat.dev ≠ d)
    (h : step s = .next t) : deviceTrace d t.trace = deviceTrace d s.trace := by
  obtain htrace | ⟨e, ho, -, -, htrace, -⟩ := traceGrowsOnlyByTheOffer s t h
  · rw [htrace]
  · obtain ⟨hb, hmem⟩ := mem_emissions_of_offer ho
    have hne : e.dev ≠ d := dev_of_mem_emissions hmem ▸ hd hb
    rw [htrace, deviceTrace_append, deviceTrace_singleton_of_ne hne, List.append_nil]

/-- Settles O40: by induction on the run; a request in progress after a step was in progress
before or has just been accepted, so it is not for `d` either. -/
theorem otherDevicesUndisturbed : Obligations.OtherDevicesUndisturbed := by
  intro n d
  induction n with
  | zero =>
    intro s t _ _ h
    obtain rfl := Host.Outcome.next.inj h
    rfl
  | succ n ih =>
    intro s t hd hacc h
    obtain ⟨u, hu, hrun⟩ := exists_step_of_run h
    rw [Laws.acceptedIn_of_next hu] at hacc
    have hdu : u.busy = true → u.lat.dev ≠ d := by
      intro hb
      obtain ⟨hbusy, hlat⟩ | ⟨q, hq, -, hdev⟩ := busy_of_step hu hb
      · exact hlat ▸ hd hbusy
      · exact hdev ▸ hacc q (List.mem_append_left _ (Option.mem_toList.mpr hq))
    rw [ih u t hdu (fun r hr => hacc r (List.mem_append_right _ hr)) hrun,
      deviceTrace_of_step hd hu]

end Sys2Proof.Machine

/-! ### The wire of a trace (R44, R48, R52, R105) -/

namespace Sys2Proof.Machine

/-- A listener hears one window for each frame, in order, whatever it has heard before. -/
theorem hear_wire_windows (es : List Emission) (l : Listener) :
    ((wire es).foldl Listener.hear l).windows =
      l.windows ++ es.map (fun e => (e.dev, serialBits e.frame)) := by
  induction es generalizing l with
  | nil => exact (List.append_nil _).symm
  | cons e es ih => rw [wire_cons, List.foldl_append, ih, hear_wireOf]; simp

/-- Every window is closed before the next one opens and at the end. -/
theorem hear_wire_selected (es : List Emission) (l : Listener) (h : l.selected = none) :
    ((wire es).foldl Listener.hear l).selected = none := by
  induction es generalizing l with
  | nil => exact h
  | cons e es ih => rw [wire_cons, List.foldl_append]; exact ih _ (by rw [hear_wireOf])

/-- Each bit has one falling edge (R48). -/
theorem count_sclkFall_bits (bs : List Bool) :
    (bs.flatMap wireBit).count .sclkFall = bs.length := by
  induction bs with
  | nil => rfl
  | cons b bs ih => simp [wireBit, ih]

/-- A select or a deselect is no event of a bit (R44). -/
theorem count_bits_eq_zero {w : WireEvent} (hrise : ∀ b, w ≠ .sclkRise b) (hfall : w ≠ .sclkFall)
    (bs : List Bool) : (bs.flatMap wireBit).count w = 0 := by
  rw [List.count_eq_zero, List.mem_flatMap]
  rintro ⟨b, -, hmem⟩
  obtain hw | hw := List.mem_pair.mp hmem
  exacts [hrise b hw, hfall hw]

theorem count_sclkFall_wireOf (e : Emission) : (wireOf e).count .sclkFall = 24 := by
  simp [wireOf, count_sclkFall_bits]

theorem count_select_wireOf (d : Dev) (e : Emission) :
    (wireOf e).count (.select d) = if e.dev = d then 1 else 0 := by
  simp [wireOf, count_bits_eq_zero, List.count_cons]

theorem count_deselect_wireOf (d : Dev) (e : Emission) :
    (wireOf e).count (.deselect d) = if e.dev = d then 1 else 0 := by
  simp [wireOf, count_bits_eq_zero, List.count_cons]

/-- An event that comes once for each frame to `d` and never else comes as often as `d` has
frames. -/
theorem count_wire_eq_deviceTrace_length {w : WireEvent} {d : Dev}
    (h : ∀ e, (wireOf e).count w = if e.dev = d then 1 else 0) (es : List Emission) :
    (wire es).count w = (deviceTrace d es).length := by
  induction es with
  | nil => rfl
  | cons e es ih =>
    rw [wire_cons, List.count_append, h, ih, deviceTrace, deviceTrace, List.filter_cons]
    by_cases hd : e.dev = d
    · simp [hd, Nat.add_comm]
    · simp [hd]

theorem count_sclkFall_wire (es : List Emission) :
    (wire es).count .sclkFall = 24 * es.length := by
  induction es with
  | nil => rfl
  | cons e es ih =>
    rw [wire_cons, List.count_append, count_sclkFall_wireOf, ih, List.length_cons]
    omega

/-- Settles O6: frame after frame, by what a listener makes of one `Emit` and by how often each
event stands in it. -/
theorem wireIsOneWindowPerFrame : Obligations.WireIsOneWindowPerFrame :=
  fun es => ⟨hear_wire_windows es .start, count_sclkFall_wire es, hear_wire_selected es .start rfl,
    fun d => ⟨count_wire_eq_deviceTrace_length (count_select_wireOf d) es,
      count_wire_eq_deviceTrace_length (count_deselect_wireOf d) es⟩⟩

end Sys2Proof.Machine

/-! ### The frame commands (R55, R106 to R113) -/

namespace Sys2Proof.Machine

/-- A frame command whose frame is on offer emits it when the transport has finished (R55, R105). -/
theorem emitsFrame_of_encode {i : Instr} {f : Frame} (h : encode i = .frame f) : EmitsFrame i f := by
  intro s dev ho hf
  rw [Laws.exec_of_encode_frame h, ← Laws.emitted_eq_afterEmit]
  exact Laws.emitOffered_of_ready ho hf

/-- The bytes of a frame whose command's byte is `b` (R42, R100). -/
theorem frameBytes_frameWord {c : BitVec 3} {b : Byte} (hb : c.setWidth 8 <<< 3 = b) (a : BitVec 3)
    (d : Data) :
    frameBytes (frameWord c a d) = [b ||| a.setWidth 8, d.extractLsb' 8 8, d.extractLsb' 0 8] := by
  rw [← encodeFrame_eq, frameBytes_encodeFrame, hb]

/-- Settles O7: each command's encoding is that frame, and its byte0 holds the command in bits
5:3. -/
theorem addressedFrameCommandsEmit : Obligations.AddressedFrameCommandsEmit :=
  fun a d => ⟨emitsFrame_of_encode rfl, emitsFrame_of_encode rfl, emitsFrame_of_encode rfl,
    emitsFrame_of_encode rfl, frameBytes_frameWord (by decide) a d,
    frameBytes_frameWord (by decide) a 0#16, frameBytes_frameWord (by decide) a d,
    frameBytes_frameWord (by decide) a d⟩

theorem encode_power (pm : BitVec 2) (m : BitVec 4) :
    encode (.power pm m) = .frame (0x200000#24 ||| (pm.setWidth 24 <<< 4) ||| m.setWidth 24) := by
  rw [encode, ← powerWord_eq, ← encodeFrame_eq, powerFrame_eq]

theorem encode_setLdac (m : BitVec 4) :
    encode (.setLdac m) = .frame (0x300000#24 ||| m.setWidth 24) := by
  rw [encode, ← maskWord_eq, ← encodeFrame_eq, setLdacFrame_eq]

/-- Settles O8: each command's encoding is that frame. -/
theorem controlFrameCommandsEmit : Obligations.ControlFrameCommandsEmit :=
  fun pm m => ⟨emitsFrame_of_encode (encode_power pm m), emitsFrame_of_encode (by decide),
    emitsFrame_of_encode (by decide), emitsFrame_of_encode (encode_setLdac m),
    emitsFrame_of_encode (by decide), emitsFrame_of_encode (by decide)⟩

/-- A frame that is not on offer is not emitted (R49 d, log entry 3). -/
theorem emitOffered_of_not_offered {f : Frame} {s : State} (h : s.frmBits ≠ some f) :
    emitOffered f s = .next s.tick := by
  unfold emitOffered
  split
  next e he =>
    have hne : e.frame ≠ f := fun hef => h (by rw [State.frmBits, he, Option.map_some, hef])
    simp [hne]
  next => rfl

/-- Settles O9: without its frame on offer, or without `frm_ready`, an emission is a tick. -/
theorem frameCommandsWaitForTheHandshake : Obligations.FrameCommandsWaitForTheHandshake := by
  intro i f s hi hwait
  rw [Laws.exec_of_encode_frame hi]
  obtain hbits | hready := hwait
  · exact emitOffered_of_not_offered hbits
  · exact Laws.emitOffered_of_not_ready hready

/-- Settles O25: an emission lets the edge pass, or records the frame on offer and goes on to the
next frame or to idle. -/
theorem frameCommandsFrame : Obligations.FrameCommandsFrame := by
  intro i f s t hi h
  rw [Laws.exec_of_encode_frame hi] at h
  obtain rfl | ⟨e, ho, hef, -, rfl⟩ := Laws.emitOffered_cases h
  · exact ⟨rfl, rfl, .inl ⟨rfl, rfl, rfl, rfl, rfl⟩⟩
  refine ⟨Laws.emitted_cut e s, Laws.emitted_edges e s,
    .inr ⟨e, ho, hef, Laws.emitted_trace e s, ?_⟩⟩
  have hpending := Laws.emitted_pending ho
  by_cases hm : s.fidx.toNat + 1 < (frames s.lat).length
  · rw [Laws.emitted_of_more hm]
    exact .inl ⟨(State.offer_eq_some ho).1, rfl, rfl, Laws.fidx_succ_toNat hm⟩
  · rw [Laws.emitted_of_last hm] at hpending ⊢
    exact .inr ⟨rfl, rfl, rfl, hpending⟩

end Sys2Proof.Machine

/-! ### The operations as runs (R121, R123, R144, R145) -/

namespace Sys2Proof.Machine

theorem runsAs_setch_of_some {sm : BitVec 3} {c : Cmd} (h : setModeCmd sm = some c) (dev : Dev)
    (a : BitVec 3) (v : Data) : RunsAs (.setch dev sm a v) dev [frameWord (Cmd.code c) a v] := by
  rw [← encodeFrame_eq, ← framesSetch_of_some h]
  exact runsAs_setch dev sm a v

theorem runsAs_setch_of_none {sm : BitVec 3} (h : setModeCmd sm = none) (dev : Dev) (a : BitVec 3)
    (v : Data) : RunsAs (.setch dev sm a v) dev [] :=
  framesSetch_of_none h a v ▸ runsAs_setch dev sm a v

/-- Settles O11: `SETCH` runs as the frame of the command its set-mode names, or as none. -/
theorem setModeCommands : Obligations.SetModeCommands := by
  intro dev a v
  have hnone : ∀ sm ∈ [0b001#3, 0b100#3, 0b101#3, 0b110#3, 0b111#3], setModeCmd sm = none := by
    decide
  exact ⟨runsAs_setch_of_some (c := .writeInput) rfl dev a v,
    runsAs_setch_of_some (c := .writeInputUpdateAll) rfl dev a v,
    runsAs_setch_of_some (c := .writeUpdate) rfl dev a v,
    fun sm hsm => runsAs_setch_of_none (hnone sm hsm) dev a v⟩

theorem framesSetch4_of_some {sm : BitVec 3} {c : Cmd} (h : setModeCmd sm = some c)
    (vA vB vC vD : Data) : framesSetch4 sm vA vB vC vD =
      [encodeFrame (Cmd.code c) 0b000#3 vA, encodeFrame (Cmd.code c) 0b001#3 vB,
       encodeFrame (Cmd.code c) 0b010#3 vC, encodeFrame (Cmd.code c) 0b011#3 vD] := by
  simp only [framesSetch4, h]
  rfl

/-- The request that encodes `SETCH4` has the frames of R123. -/
theorem runsAs_setch4 (dev : Dev) (sm : BitVec 3) (vA vB vC vD : Data) :
    RunsAs (.setch4 dev sm vA vB vC vD) dev (framesSetch4 sm vA vB vC vD) :=
  Laws.runsAs_of_encode (r := { Req.naming 0x2#4 dev with
    setmode := sm, valA := vA, valB := vB, valC := vC, valD := vD }) rfl rfl

/-- The request that encodes `LDAC` has the frame of R144. -/
theorem runsAs_ldac (dev : Dev) (m : BitVec 4) : RunsAs (.ldac dev m) dev (framesLdac m) :=
  Laws.runsAs_of_encode (r := { Req.naming 0x8#4 dev with mask := m }) rfl rfl

/-- The request that encodes `LDACB` has the frame that `LDAC` has for the aggregated mask (R145).
-/
theorem runsAs_ldacb (dev : Dev) (eA eB eC eD : Bool) :
    RunsAs (.ldacb dev eA eB eC eD) dev (framesLdac (makeChannelMask eD eC eB eA)) :=
  Laws.runsAs_of_encode
    (r := { Req.naming 0x9#4 dev with enA := eA, enB := eB, enC := eC, enD := eD }) rfl rfl

theorem decodeReq_of_setch4 {r : Req} (h : r.op = 0x2#4) :
    decodeReq r = .ok (.setch4 r.dev r.setmode r.valA r.valB r.valC r.valD) := by
  simp only [decodeReq, h]

theorem decodeReq_of_ldac {r : Req} (h : r.op = 0x8#4) :
    decodeReq r = .ok (.ldac r.dev r.mask) := by
  simp only [decodeReq, h]

theorem decodeReq_of_ldacb {r : Req} (h : r.op = 0x9#4) :
    decodeReq r = .ok (.ldacb r.dev r.enA r.enB r.enC r.enD) := by
  simp only [decodeReq, h]

/-- Settles O12: `SETCH4` runs as `framesSetch4`, which is four frames or none. -/
theorem setchFourEmitsFourFrames : Obligations.SetchFourEmitsFourFrames :=
  ⟨fun _ => decodeReq_of_setch4, fun dev sm vA vB vC vD =>
    ⟨fun _ hc => framesSetch4_of_some hc vA vB vC vD ▸ runsAs_setch4 dev sm vA vB vC vD,
      fun hc => framesSetch4_eq_nil_iff.mpr hc ▸ runsAs_setch4 dev sm vA vB vC vD⟩⟩

@[simp] theorem frameAddr_encodeFrame (c a : BitVec 3) (d : Data) :
    frameAddr (encodeFrame c a d) = a := by rw [encodeFrame_eq, frameAddr_frameWord]

/-- Settles O13: both forms are the same instruction, and each of its four frames carries its own
channel's address and value. -/
theorem setchFourPairsChannelWithValue : Obligations.SetchFourPairsChannelWithValue := by
  intro dev sm c xs hc
  have hrun := runsAs_setch4 dev sm xs[3] xs[2] xs[1] xs[0]
  rw [framesSetch4_of_some hc] at hrun
  refine ⟨_, hrun, hrun, rfl, fun k => ?_⟩
  fin_cases k <;> simp [readFrame_encodeFrame]

/-- The mask of four booleans as a number, in the frame of `SET_LDAC` (R145). -/
theorem setLdacFrame_makeChannelMask : ∀ eA eB eC eD : Bool,
    encodeFrame 0b110#3 0b000#3 (maskWord (makeChannelMask eD eC eB eA)) =
      BitVec.ofNat 24 (0x300000 + 8 * eD.toNat + 4 * eC.toNat + 2 * eB.toNat + eA.toNat) := by
  decide

/-- Settles O19: `LDAC` and `LDACB` run as `framesLdac`, whose word is the mask. -/
theorem ldacFormsEmitTheMask : Obligations.LdacFormsEmitTheMask :=
  ⟨fun _ => decodeReq_of_ldac, fun _ => decodeReq_of_ldacb, fun dev m eA eB eC eD =>
    ⟨setLdacFrame_eq m ▸ runsAs_ldac dev m,
      setLdacFrame_makeChannelMask eA eB eC eD ▸ runsAs_ldacb dev eA eB eC eD⟩⟩

end Sys2Proof.Machine

/-! ### Accept and wait (R29, R72) -/

namespace Sys2Proof.Machine

/-- Settles O22: an operation executes as the accept of its request, which a busy block turns
away. -/
theorem operationsWaitWhileBusy : Obligations.OperationsWaitWhileBusy := by
  intro i r s hi hready
  have hb : s.busy = true := by simpa using hready
  rw [Laws.exec_of_encode_request hi, Laws.accept_of_busy hb]
  rfl

/-- Settles O23: a reserved selector has no frames, so its accept completes at once. -/
theorem reservedSelectorEmitsNothing : Obligations.ReservedSelectorEmitsNothing := by
  intro s hr hready hv hop
  have hb : s.busy = false := by simpa using hready
  obtain ⟨r, hfr, -, -, hstep⟩ := Laws.step_of_request hr hb hv
  rw [hstep, Laws.accept_of_nil hb (hfr.trans (Laws.frames_of_reserved hop))]
  simp [State.afterOperation, State.toIdle, State.tick]

/-- Settles O24: the three outcomes of an accept. -/
theorem operationsFrame : Obligations.OperationsFrame := by
  intro i r s t hi h
  rw [Laws.exec_of_encode_request hi] at h
  obtain ⟨hb, rfl⟩ | ⟨hb, hf, rfl⟩ | ⟨hb, hf, rfl⟩ := Laws.accept_cases h
  · exact ⟨rfl, rfl, rfl, .inl ⟨hb, hb, rfl, rfl, rfl⟩⟩
  · exact ⟨rfl, rfl, rfl, .inr (.inr ⟨hb, rfl, rfl, rfl, hf⟩)⟩
  · exact ⟨rfl, rfl, rfl, .inr (.inl ⟨hb, rfl, rfl, rfl, rfl, hf⟩)⟩

end Sys2Proof.Machine

/-! ### The step: what it executes, when it stops, reset, busy (R170, R172, R190, R197) -/

namespace Sys2Proof.Machine

/-- Without `rst` and without an aborted transfer a step is its instruction (R120). -/
theorem step_of_fetch {s : State} {i : Instr} (hr : s.now.rst = false) (ha : s.aborting = false)
    (hf : s.fetch = some (.ok i)) : step s = exec i s := by
  simp [step, hr, ha, hf]

theorem fetch_of_offer {s : State} {e : Emission} (ho : s.offer = some e) :
    s.fetch = some (decodeFrame e.frame) := by
  simp [State.fetch, (State.offer_eq_some ho).1, ho]

theorem fetch_of_request {s : State} (hb : s.busy = false) (hv : s.now.reqValid = true) :
    s.fetch = some (decodeReq s.now.req) := by
  simp [State.fetch, hb, hv]

/-- Settles O26: in both cases the instruction is the one that the step fetches. -/
theorem stepExecutesTheDecodedInstruction : Obligations.StepExecutesTheDecodedInstruction := by
  rintro s i hr ha (⟨hb, hv, hd⟩ | ⟨e, ho, hd⟩)
  · exact step_of_fetch hr ha (hd ▸ fetch_of_request hb hv)
  · exact step_of_fetch hr ha (hd ▸ fetch_of_offer ho)

theorem exists_next_accept (r : Req) (s : State) : ∃ t, accept r s = .next t := by
  cases hb : s.busy with
  | true => exact ⟨_, Laws.accept_of_busy hb⟩
  | false =>
    by_cases hf : frames r = []
    · exact ⟨_, Laws.accept_of_nil hb hf⟩
    · exact ⟨_, Laws.accept_of_ne_nil hb hf⟩

theorem exists_next_emitOffered (f : Frame) (s : State) : ∃ t, emitOffered f s = .next t := by
  unfold emitOffered
  split
  · split <;> exact ⟨_, rfl⟩
  · exact ⟨_, rfl⟩

/-- No instruction stops (R170). -/
theorem exists_next_exec (i : Instr) (s : State) : ∃ t, exec i s = .next t := by
  cases h : encode i with
  | frame f => exact Laws.exec_of_encode_frame h s ▸ exists_next_emitOffered f s
  | request r => exact Laws.exec_of_encode_request h s ▸ exists_next_accept r s

/-- A transfer that does not abort, or an edge with `rst`, does not stop the run (R172, R190). -/
theorem exists_next_step {s : State} (h : s.now.rst = true ∨ s.aborting = false) :
    ∃ t, step s = .next t := by
  obtain ⟨-, hs⟩ | ⟨hr, ⟨ha, -⟩ | ⟨e, -, -, -, hs⟩ | ⟨e, -, -, -, hs⟩ | ⟨-, -, hs⟩ |
    ⟨-, -, -, hs⟩ | ⟨-, -, r, -, -, -, -, hs⟩⟩ := Laws.step_cases s
  case inr.inl => simp [hr, ha] at h
  all_goals exact ⟨_, hs⟩

/-- A step aborts a transfer or answers a next state (R172). -/
theorem step_aborts_or_next (s : State) :
    (s.now.rst = false ∧ s.aborting = true) ∨ ∃ t, step s = .next t := by
  cases hr : s.now.rst with
  | true => exact .inr (exists_next_step (.inl hr))
  | false =>
    cases ha : s.aborting with
    | true => exact .inl ⟨rfl, rfl⟩
    | false => exact .inr (exists_next_step (.inr ha))

theorem step_ne_refused (s : State) (r : Refusal) : step s ≠ .refused r := by
  intro h
  obtain ⟨hr, ha⟩ | ⟨t, ht⟩ := step_aborts_or_next s
  · rw [Laws.step_of_abort hr ha] at h; cases h
  · rw [ht] at h; cases h

theorem step_eq_fault_iff (s : State) (x : Fault) :
    step s = .fault x ↔ s.now.rst = false ∧ s.now.abort = true ∧ s.frmValid = true := by
  rw [← Bool.and_eq_true, ← State.aborting]
  constructor
  · intro h
    obtain hab | ⟨t, ht⟩ := step_aborts_or_next s
    · exact hab
    · rw [ht] at h; cases h
  · rintro ⟨hr, ha⟩
    cases x
    exact Laws.step_of_abort hr ha

/-- Under `TransportReliable` a run never ends (R172). -/
theorem exists_run_next {n : Nat} {s : State} (h : TransportReliable s) :
    ∃ t, Host.Core.run Sys2Proof.core n s = .next t := by
  induction n generalizing s with
  | zero => exact ⟨s, rfl⟩
  | succ n ih =>
    have hsafe : s.aborting = false := by rw [State.aborting, h.now, Bool.false_and]
    obtain ⟨u, hu⟩ := exists_next_step (.inr hsafe)
    rw [Laws.run_of_next hu]
    exact ih (h.tail (Laws.step_next_edges hu))

/-- Settles O27: an instruction accepts or emits; a step aborts a transfer or answers a next
state. -/
theorem onlyAnAbortedTransferStops : Obligations.OnlyAnAbortedTransferStops :=
  ⟨exists_next_exec, step_ne_refused, step_eq_fault_iff, fun _ _ => exists_run_next⟩

/-- Settles O28: such a step is the reset edge. -/
theorem resetEdgeAbandonsTheOperation : Obligations.ResetEdgeAbandonsTheOperation :=
  fun s hr => ⟨s.rstEdge, Laws.step_of_rst hr, rstEdge_busy s, rstEdge_fidx s,
    congrArg not (rstEdge_busy s), by simp [State.frmValid], rstEdge_pending s, Laws.rstEdge_trace s,
    Laws.rstEdge_cut s, Laws.rstEdge_edges s⟩

/-- Settles O31: of the coming edge a busy block reads `rst`, `abort` and `frm_ready` alone; what it
offers, and what it is after the edge, do not depend on the rest. -/
theorem requestWiresIgnoredWhileBusy : Obligations.RequestWiresIgnoredWhileBusy := by
  intro s e e' es hb hr hf ha
  let u : State := { s with edges := e :: es }
  let u' : State := { s with edges := e' :: es }
  have hrst : u'.now.rst = u.now.rst := hr.symm
  have hready : u'.now.frmReady = u.now.frmReady := hf.symm
  have habort : u'.now.abort = u.now.abort := ha.symm
  have haborting : u'.aborting = u.aborting := congrArg (· && s.frmValid) habort
  obtain ⟨hr1, hs⟩ | ⟨hr1, ⟨ha1, hs⟩ | ⟨x, ho, ha1, hf1, hs⟩ | ⟨x, ho, ha1, hf1, hs⟩ | ⟨ho, -, hs⟩ |
    ⟨hidle, -⟩ | ⟨hidle, -⟩⟩ := Laws.step_cases u
  · exact hs.trans (Laws.step_of_rst (hrst.trans hr1)).symm
  · exact hs.trans (Laws.step_of_abort (hrst.trans hr1) (haborting.trans ha1)).symm
  · exact hs.trans (step_of_ready (hrst.trans hr1) (habort.trans ha1) ho (hready.trans hf1)).symm
  · exact hs.trans (step_of_held (hrst.trans hr1) (habort.trans ha1) ho (hready.trans hf1)).symm
  · exact hs.trans (Laws.step_of_nothing (hrst.trans hr1) ho (.inl hb)).symm
  · exact absurd (hidle.symm.trans hb) Bool.false_ne_true
  · exact absurd (hidle.symm.trans hb) Bool.false_ne_true

end Sys2Proof.Machine

/-! ### The request (R30, R41, R126) -/

namespace Sys2Proof.Machine

/-- A request's frames are those of the operation it names, written out with the unread fields zero
(R30, log entry 7). -/
theorem exists_encode_of_decodeReq {r : Req} {i : Instr} (h : decodeReq r = .ok i) :
    ∃ q, encode i = .request q ∧ emissions q = emissions r := by
  unfold decodeReq at h
  split at h
  case h_11 => cases h
  all_goals
    rename_i hop
    obtain rfl := Except.ok.inj h
    refine ⟨_, rfl, emissions_congr ?_ rfl⟩
    simp only [frames, hop]
    rfl

/-- So requests that decode to the same stand for the same emissions (R30). -/
theorem emissions_congr_of_decodeReq {r r' : Req} (h : decodeReq r = decodeReq r') :
    emissions r = emissions r' := by
  cases hd : decodeReq r with
  | ok i =>
    obtain ⟨q, hq, hr⟩ := exists_encode_of_decodeReq hd
    obtain ⟨q', hq', hr'⟩ := exists_encode_of_decodeReq (h ▸ hd)
    obtain rfl := Encoded.request.inj (hq.symm.trans hq')
    exact hr.symm.trans hr'
  | error e =>
    have hr := (Laws.frames_of_decodeReq_error hd).1
    have hr' := (Laws.frames_of_decodeReq_error (h ▸ hd)).1
    simp [emissions, hr, hr']

/-- Settles O32: selector by selector the decoder reads the fields on which the two requests
agree, and what is decoded determines the emissions. -/
theorem unreadFieldsHaveNoEffect : Obligations.UnreadFieldsHaveNoEffect := by
  refine ⟨fun r r' hop hdev h1 h2 h3 h4 h5 h6 h7 h8 h9 hA => ?_, fun _ _ => rfl⟩
  suffices hd : decodeReq r = decodeReq r' from ⟨hd, emissions_congr_of_decodeReq hd⟩
  unfold decodeReq
  rw [← hop, ← hdev]
  split
  case h_1 h => obtain ⟨hsm, ha, hv⟩ := h1 h; rw [hsm, ha, hv]
  case h_2 h => obtain ⟨hsm, hvA, hvB, hvC, hvD⟩ := h2 h; rw [hsm, hvA, hvB, hvC, hvD]
  case h_3 h => rw [h3 h]
  case h_4 h => obtain ⟨hm, hp⟩ := h4 h; rw [hm, hp]
  case h_5 h => obtain ⟨hA, hB, hC, hD, hp⟩ := h5 h; rw [hA, hB, hC, hD, hp]
  case h_6 h => obtain ⟨hA, hB, hC, hD⟩ := h6 h; rw [hA, hB, hC, hD]
  case h_7 h => rw [h7 h]
  case h_8 h => rw [h8 h]
  case h_9 h => obtain ⟨hA, hB, hC, hD⟩ := h9 h; rw [hA, hB, hC, hD]
  case h_10 h => rw [hA h]
  case h_11 => rfl

theorem length_framesSetch (sm a : BitVec 3) (v : Data) :
    (framesSetch sm a v).length = if (setModeCmd sm).isSome then 1 else 0 := by
  cases hc : setModeCmd sm with
  | none => rw [framesSetch_of_none hc]; rfl
  | some c => rw [framesSetch_of_some hc]; rfl

theorem length_framesSetch4 (sm : BitVec 3) (vA vB vC vD : Data) :
    (framesSetch4 sm vA vB vC vD).length = if (setModeCmd sm).isSome then 4 else 0 := by
  cases hc : setModeCmd sm with
  | none => rw [framesSetch4_eq_nil_iff.mpr hc]; rfl
  | some c => rw [framesSetch4_of_some hc]; rfl

/-- Settles O33: by the selector, each operation's list is written out. -/
theorem frameCountOfEachOperation : Obligations.FrameCountOfEachOperation := by
  intro r
  refine ⟨fun h => ?pwr4, fun h => ?setch4, fun h => ?setch, fun h => ?single, fun h => ?reserved⟩
  case pwr4 => simp only [frames, h]; rfl
  case setch4 => simp only [frames, h]; exact length_framesSetch4 ..
  case setch => simp only [frames, h]; exact length_framesSetch ..
  case single =>
    simp only [List.mem_cons, List.not_mem_nil, or_false] at h
    obtain h | h | h | h | h | h | h := h <;> simp only [frames, h] <;> rfl
  case reserved => rw [Laws.frames_of_reserved h]; rfl

end Sys2Proof.Machine
